-- ==== Sys2Proof/Word.lean ====
section
/-! DEFINITION. The machine's word types (R10, R11 of 00_scope.md; R20 of 10_state.md). -/

namespace Sys2Proof

/-- A byte: a general register, a timer, a memory cell (R20). -/
abbrev Byte := BitVec 8

/-- A 16-bit word: `PC`, `I`, a stack entry, an instruction word, an address (R12, R20, R50). -/
abbrev Word := BitVec 16

/-- A 12-bit address field `nnn` (R12). -/
abbrev Addr12 := BitVec 12

/-- The number of a general register, 0 to 15 (R21). -/
abbrev RegIdx := Fin 16

/-- A key number, 0 to 15 (R6, R28). -/
abbrev KeyNumber := Fin 16

/-- A font image, the parameter FONT: 16 glyphs of 5 bytes (R6, R7). -/
abbrev FontImage := Vector Byte 80

end Sys2Proof
end

