-- ==== Sys2Proof/Config.lean ====
section
/-! DEFINITION. The parameters the spec fixes (R6 of 00_scope.md), the host's events, and the two free values: the random
bytes (R191) and what the host raises (R62). The parameters the spec leaves open with a default (FONT, MAX_CALL_DEPTH of R7)
stand in Machine/Font.lean and Machine/Ops.lean. -/

namespace Sys2Proof

/-- The events of R100. `step`, `tick` and `setKey` may occur in any order during a run (R62); `load` occurs only between
`reset` and the first `step`, so the two stand together as `boot` (log 7). -/
inductive Event where
  /-- The CPU executes one instruction (R101). -/
  | step
  /-- The timer unit decrements both timers (R226). -/
  | tick
  /-- The host overwrites the key latch (R228). -/
  | setKey (k : Option KeyNumber)
  /-- The host raises `reset` and then loads the parameters FONT and PROGRAM (R7, R240, R242). -/
  | boot (font : FontImage) (program : List Byte)
  deriving DecidableEq, Repr, Inhabited

end Sys2Proof

namespace Sys2Proof.Config

/-- `MEM_SIZE`: addresses 0x000 to 0xFFF (R6, R50). -/
def memSize : Nat := 0x1000

/-- `PROGRAM_BASE`, where the loader puts the program (R6, R59). -/
def programBase : Nat := 0x200

/-- `PC_RESET`, the reset vector (R6, R57, R240). -/
def pcReset : Word := 0x200

/-- `FONT_BASE` (R6). -/
def fontBase : Nat := 0x000

/-- `GLYPH_BYTES` (R6): the bytes of one font glyph. -/
def glyphBytes : Nat := 5

/-- `rnd_in`: the byte the k-th execution of RND samples, a FREE VALUE under no law (R191; decision D13; log 4).
It has no body, so nothing in Lean can know a value of it. -/
opaque rndIn : Nat → Byte

/-- What a host that goes on without end raises, its k-th event, a FREE VALUE under no law (R62: "A model makes every
interleaving of the three event kinds a possible run"; decision D2; log 30). -/
opaque hostEvent : Nat → Event

end Sys2Proof.Config
end

