-- ==== Sys2Proof/Syntax.lean ====
section
/-! DEFINITION. The instructions: one constructor per row of spec/opcode_table.json, in its order (R80 of 30_encoding.md). -/

namespace Sys2Proof

/-- The 35 instructions of R80. `x`, `y` are register numbers, `nn` an 8-bit immediate, `nnn` a 12-bit address and
`n` a row count (R12, R78). SHR and SHL have no `y`: the field is a don't-care (R84). -/
inductive Instr where
  | cls                                  -- 00E0  clear-screen
  | ret                                  -- 00EE  return
  | call0 (nnn : Addr12)                 -- 0nnn  call-subroutine
  | jp (nnn : Addr12)                    -- 1nnn  jump
  | call (nnn : Addr12)                  -- 2nnn  call
  | seVxNn (x : RegIdx) (nn : Byte)      -- 3xnn  skip-if-equal-immediate
  | sneVxNn (x : RegIdx) (nn : Byte)     -- 4xnn  skip-if-not-equal-immediate
  | seVxVy (x y : RegIdx)                -- 5xy0  skip-if-registers-equal
  | ldVxNn (x : RegIdx) (nn : Byte)      -- 6xnn  set-immediate
  | addVxNn (x : RegIdx) (nn : Byte)     -- 7xnn  add-immediate
  | ldVxVy (x y : RegIdx)                -- 8xy0
  | or (x y : RegIdx)                    -- 8xy1
  | and (x y : RegIdx)                   -- 8xy2
  | xor (x y : RegIdx)                   -- 8xy3
  | addVxVy (x y : RegIdx)               -- 8xy4
  | sub (x y : RegIdx)                   -- 8xy5
  | shr (x : RegIdx)                     -- 8x-6
  | subn (x y : RegIdx)                  -- 8xy7
  | shl (x : RegIdx)                     -- 8x-E
  | sneVxVy (x y : RegIdx)               -- 9xy0  skip-if-registers-not-equal
  | ldINnn (nnn : Addr12)                -- Annn  set-index
  | jpV0 (nnn : Addr12)                  -- Bnnn  jump-with-offset
  | rnd (x : RegIdx) (nn : Byte)         -- Cxnn  random
  | drw (x y : RegIdx) (n : Fin 16)      -- Dxyn  draw-sprite
  | skp (x : RegIdx)                     -- Ex9E  skip-if-key-pressed
  | sknp (x : RegIdx)                    -- ExA1  skip-if-key-not-pressed
  | ldVxDt (x : RegIdx)                  -- Fx07  get-delay-timer
  | ldVxK (x : RegIdx)                   -- Fx0A  wait-for-key
  | ldDtVx (x : RegIdx)                  -- Fx15  set-delay-timer
  | ldStVx (x : RegIdx)                  -- Fx18  set-sound-timer
  | addIVx (x : RegIdx)                  -- Fx1E  add-to-index
  | ldFVx (x : RegIdx)                   -- Fx29  index-to-font-glyph
  | ldBVx (x : RegIdx)                   -- Fx33  store-BCD
  | ldMiVx (x : RegIdx)                  -- Fx55  store-registers
  | ldVxMi (x : RegIdx)                  -- Fx65  load-registers
  deriving DecidableEq, Repr

end Sys2Proof
end

