-- ==== Sys2Proof/WellFormed.lean ====
section
/-! DEFINITION. Which terms of Instr are instructions: the field widths are in the types, and one check is left. -/

namespace Sys2Proof

/-- CALL0 cannot express the two targets whose words are CLS and RET (R82; R90: "`CALL0 nnn` refuses
`nnn = 0x0E0` and `nnn = 0x0EE`"). Every other instruction admits every value of its fields (R21, R127). -/
def Instr.wellFormed : Instr → Bool
  | .call0 nnn => nnn != 0x0E0 && nnn != 0x0EE
  | .cls | .ret => true
  | .jp _ | .call _ | .ldINnn _ | .jpV0 _ => true
  | .seVxNn _ _ | .sneVxNn _ _ | .ldVxNn _ _ | .addVxNn _ _ | .rnd _ _ => true
  | .seVxVy _ _ | .sneVxVy _ _ | .ldVxVy _ _ | .or _ _ | .and _ _ | .xor _ _ => true
  | .addVxVy _ _ | .sub _ _ | .subn _ _ | .shr _ | .shl _ => true
  | .drw _ _ _ => true
  | .skp _ | .sknp _ | .ldVxDt _ | .ldVxK _ | .ldDtVx _ | .ldStVx _ => true
  | .addIVx _ | .ldFVx _ | .ldBVx _ | .ldMiVx _ | .ldVxMi _ => true

end Sys2Proof
end

