-- ==== Sys2Proof/Decode.lean ====
section
/-! DEFINITION. Decoding (R79), total on every word and every list of bytes, and after it the encoder and the rows of
the opcode table (R80, R92), all of 30_encoding.md. The opcode numbers and the places of x and y are the standard CHIP-8
ones the spec supplies (R81; decisions D3, D4; log 9). -/

namespace Sys2Proof

/-! ## The fields of a word (R12, R76) -/

/-- A 4-bit slice as a number 0 to 15. -/
def nibble (op : Word) (lo : Nat) : Fin 16 := (op.extractLsb' lo 4).toFin

/-- The high nibble `N3 = op[15:12]`. -/
def fieldN3 (op : Word) : Fin 16 := nibble op 12
/-- `x = op[11:8]`. -/
def fieldX (op : Word) : RegIdx := nibble op 8
/-- `y = op[7:4]`. -/
def fieldY (op : Word) : RegIdx := nibble op 4
/-- `n = op[3:0]`, the low nibble. -/
def fieldN (op : Word) : Fin 16 := nibble op 0
/-- `nn = op[7:0]`, the low byte. -/
def fieldNN (op : Word) : Byte := op.extractLsb' 0 8
/-- `nnn = op[11:0]`. -/
def fieldNNN (op : Word) : Addr12 := op.extractLsb' 0 12

/-! ## Decoding (R79) -/

/-- Family 0: CLS and RET are selected by the whole word, every other word is CALL0 (R82; decision D5; log 10). -/
def decodeFamily0 (op : Word) : Instr :=
  if op = 0x00E0 then .cls
  else if op = 0x00EE then .ret
  else .call0 (fieldNNN op)

/-- Family 8, the register ALU family: the selector is the low nibble (R79, R151). -/
def decodeFamily8 (op : Word) : Option Instr :=
  match fieldN op with
  | 0x0 => some (.ldVxVy (fieldX op) (fieldY op))
  | 0x1 => some (.or (fieldX op) (fieldY op))
  | 0x2 => some (.and (fieldX op) (fieldY op))
  | 0x3 => some (.xor (fieldX op) (fieldY op))
  | 0x4 => some (.addVxVy (fieldX op) (fieldY op))
  | 0x5 => some (.sub (fieldX op) (fieldY op))
  | 0x6 => some (.shr (fieldX op))
  | 0x7 => some (.subn (fieldX op) (fieldY op))
  | 0xE => some (.shl (fieldX op))
  | _ => none

/-- Family E, the key skips: the selector is the low byte (R79). -/
def decodeFamilyE (op : Word) : Option Instr :=
  if fieldNN op = 0x9E then some (.skp (fieldX op))
  else if fieldNN op = 0xA1 then some (.sknp (fieldX op))
  else none

/-- Family F: the selector is the low byte (R79). -/
def decodeFamilyF (op : Word) : Option Instr :=
  if fieldNN op = 0x07 then some (.ldVxDt (fieldX op))
  else if fieldNN op = 0x0A then some (.ldVxK (fieldX op))
  else if fieldNN op = 0x15 then some (.ldDtVx (fieldX op))
  else if fieldNN op = 0x18 then some (.ldStVx (fieldX op))
  else if fieldNN op = 0x1E then some (.addIVx (fieldX op))
  else if fieldNN op = 0x29 then some (.ldFVx (fieldX op))
  else if fieldNN op = 0x33 then some (.ldBVx (fieldX op))
  else if fieldNN op = 0x55 then some (.ldMiVx (fieldX op))
  else if fieldNN op = 0x65 then some (.ldVxMi (fieldX op))
  else none

/-- `decode(op)` of R79 on all 65536 words; `none` is the spec's `Invalid` (R83). -/
def decodeWord (op : Word) : Option Instr :=
  match fieldN3 op with
  | 0x0 => some (decodeFamily0 op)
  | 0x1 => some (.jp (fieldNNN op))
  | 0x2 => some (.call (fieldNNN op))
  | 0x3 => some (.seVxNn (fieldX op) (fieldNN op))
  | 0x4 => some (.sneVxNn (fieldX op) (fieldNN op))
  | 0x5 => if fieldN op = 0 then some (.seVxVy (fieldX op) (fieldY op)) else none
  | 0x6 => some (.ldVxNn (fieldX op) (fieldNN op))
  | 0x7 => some (.addVxNn (fieldX op) (fieldNN op))
  | 0x8 => decodeFamily8 op
  | 0x9 => if fieldN op = 0 then some (.sneVxVy (fieldX op) (fieldY op)) else none
  | 0xA => some (.ldINnn (fieldNNN op))
  | 0xB => some (.jpV0 (fieldNNN op))
  | 0xC => some (.rnd (fieldX op) (fieldNN op))
  | 0xD => some (.drw (fieldX op) (fieldY op) (fieldN op))
  | 0xE => decodeFamilyE op
  | _ => decodeFamilyF op      -- 0xF, the one value left

/-- The big-endian word of two bytes: the byte at the lower address is the high byte (R51). -/
def wordOfBytes (hi lo : Byte) : Word := hi ++ lo

/-- The high byte of a word, the one at the lower address (R51). -/
def highByte (w : Word) : Byte := w.extractLsb' 8 8

/-- The low byte of a word (R51). -/
def lowByte (w : Word) : Byte := w.extractLsb' 0 8

/-- Why a list of bytes does not begin with an instruction. -/
inductive DecodeError where
  /-- Fewer than two bytes: every instruction is two bytes long (R75). -/
  | tooShort
  /-- The word is none of the 35 instructions (R83). -/
  | invalidOpcode (op : Word)
  deriving DecidableEq, Repr

/-- The instruction a list of bytes begins with, and the bytes after it. -/
def decode : List Byte → Except DecodeError (Instr × List Byte)
  | hi :: lo :: rest =>
    match decodeWord (wordOfBytes hi lo) with
    | some i => .ok (i, rest)
    | none => .error (.invalidOpcode (wordOfBytes hi lo))
  | _ => .error .tooShort

/-- The bits an instruction has, numbered as spec/opcode_table.json numbers them: one 16-bit word, bit 0 its least
significant bit, stored big-endian (R51, R92). Bits from `nbits` on are 0. -/
def tableWord (nbits w : Nat) : Word := BitVec.ofNat 16 (w % 2 ^ nbits)

/-- What the decoder reads from the instruction whose bits are `w`, through the bytes as memory holds them. -/
def decodeTableWord (nbits w : Nat) : Option Instr :=
  match decode [highByte (tableWord nbits w), lowByte (tableWord nbits w)] with
  | .ok (i, _) => some i
  | .error _ => none

/-! ## Encoding (R77, R80) -/

/-- A number 0 to 15 as a 4-bit field. -/
def nib (k : Fin 16) : BitVec 4 := BitVec.ofNat 4 k.val

/-- Format A: opcode nibble and `nnn`. -/
def formatA (n3 : BitVec 4) (nnn : Addr12) : Word := n3 ++ nnn
/-- Formats XI and XS: opcode nibble, `x`, and the low byte (an immediate or a selector). -/
def formatX (n3 : BitVec 4) (x : RegIdx) (nn : Byte) : Word := n3 ++ nib x ++ nn
/-- Formats XY and XYN: opcode nibble, `x`, `y`, and the low nibble (a selector or a count). -/
def formatXY (n3 : BitVec 4) (x y : RegIdx) (n : Fin 16) : Word := n3 ++ nib x ++ nib y ++ nib n

/-- The word of an instruction (R80). SHR and SHL are written with `y = 0` (R90). -/
def encode : Instr → Word
  | .cls => 0x00E0
  | .ret => 0x00EE
  | .call0 nnn => formatA 0x0 nnn
  | .jp nnn => formatA 0x1 nnn
  | .call nnn => formatA 0x2 nnn
  | .seVxNn x nn => formatX 0x3 x nn
  | .sneVxNn x nn => formatX 0x4 x nn
  | .seVxVy x y => formatXY 0x5 x y 0x0
  | .ldVxNn x nn => formatX 0x6 x nn
  | .addVxNn x nn => formatX 0x7 x nn
  | .ldVxVy x y => formatXY 0x8 x y 0x0
  | .or x y => formatXY 0x8 x y 0x1
  | .and x y => formatXY 0x8 x y 0x2
  | .xor x y => formatXY 0x8 x y 0x3
  | .addVxVy x y => formatXY 0x8 x y 0x4
  | .sub x y => formatXY 0x8 x y 0x5
  | .shr x => formatXY 0x8 x 0 0x6
  | .subn x y => formatXY 0x8 x y 0x7
  | .shl x => formatXY 0x8 x 0 0xE
  | .sneVxVy x y => formatXY 0x9 x y 0x0
  | .ldINnn nnn => formatA 0xA nnn
  | .jpV0 nnn => formatA 0xB nnn
  | .rnd x nn => formatX 0xC x nn
  | .drw x y n => formatXY 0xD x y n
  | .skp x => formatX 0xE x 0x9E
  | .sknp x => formatX 0xE x 0xA1
  | .ldVxDt x => formatX 0xF x 0x07
  | .ldVxK x => formatX 0xF x 0x0A
  | .ldDtVx x => formatX 0xF x 0x15
  | .ldStVx x => formatX 0xF x 0x18
  | .addIVx x => formatX 0xF x 0x1E
  | .ldFVx x => formatX 0xF x 0x29
  | .ldBVx x => formatX 0xF x 0x33
  | .ldMiVx x => formatX 0xF x 0x55
  | .ldVxMi x => formatX 0xF x 0x65

/-- The two bytes of an instruction, lowest address first (R51, R75). -/
def encodeBytes (i : Instr) : List Byte := [highByte (encode i), lowByte (encode i)]

/-! ## The opcode table (R92) -/

/-- One row of the machine-readable table: a word `w` selects it when `w & mask = match` and `w` is not excepted. -/
structure OpcodeRow where
  mask   : Word
  value  : Word
  except : List Word := []
  deriving DecidableEq, Repr

/-- R92's test. -/
def OpcodeRow.selects (r : OpcodeRow) (w : Word) : Bool :=
  (w &&& r.mask) == r.value && !r.except.contains w

/-- The row of spec/opcode_table.json an instruction belongs to. -/
def Instr.row : Instr → OpcodeRow
  | .cls => ⟨0xFFFF, 0x00E0, []⟩
  | .ret => ⟨0xFFFF, 0x00EE, []⟩
  | .call0 _ => ⟨0xF000, 0x0000, [0x00E0, 0x00EE]⟩
  | .jp _ => ⟨0xF000, 0x1000, []⟩
  | .call _ => ⟨0xF000, 0x2000, []⟩
  | .seVxNn _ _ => ⟨0xF000, 0x3000, []⟩
  | .sneVxNn _ _ => ⟨0xF000, 0x4000, []⟩
  | .seVxVy _ _ => ⟨0xF00F, 0x5000, []⟩
  | .ldVxNn _ _ => ⟨0xF000, 0x6000, []⟩
  | .addVxNn _ _ => ⟨0xF000, 0x7000, []⟩
  | .ldVxVy _ _ => ⟨0xF00F, 0x8000, []⟩
  | .or _ _ => ⟨0xF00F, 0x8001, []⟩
  | .and _ _ => ⟨0xF00F, 0x8002, []⟩
  | .xor _ _ => ⟨0xF00F, 0x8003, []⟩
  | .addVxVy _ _ => ⟨0xF00F, 0x8004, []⟩
  | .sub _ _ => ⟨0xF00F, 0x8005, []⟩
  | .shr _ => ⟨0xF00F, 0x8006, []⟩
  | .subn _ _ => ⟨0xF00F, 0x8007, []⟩
  | .shl _ => ⟨0xF00F, 0x800E, []⟩
  | .sneVxVy _ _ => ⟨0xF00F, 0x9000, []⟩
  | .ldINnn _ => ⟨0xF000, 0xA000, []⟩
  | .jpV0 _ => ⟨0xF000, 0xB000, []⟩
  | .rnd _ _ => ⟨0xF000, 0xC000, []⟩
  | .drw _ _ _ => ⟨0xF000, 0xD000, []⟩
  | .skp _ => ⟨0xF0FF, 0xE09E, []⟩
  | .sknp _ => ⟨0xF0FF, 0xE0A1, []⟩
  | .ldVxDt _ => ⟨0xF0FF, 0xF007, []⟩
  | .ldVxK _ => ⟨0xF0FF, 0xF00A, []⟩
  | .ldDtVx _ => ⟨0xF0FF, 0xF015, []⟩
  | .ldStVx _ => ⟨0xF0FF, 0xF018, []⟩
  | .addIVx _ => ⟨0xF0FF, 0xF01E, []⟩
  | .ldFVx _ => ⟨0xF0FF, 0xF029, []⟩
  | .ldBVx _ => ⟨0xF0FF, 0xF033, []⟩
  | .ldMiVx _ => ⟨0xF0FF, 0xF055, []⟩
  | .ldVxMi _ => ⟨0xF0FF, 0xF065, []⟩

/-- One instruction of each row, in the table's order. -/
def rowRepresentatives : List Instr :=
  [.cls, .ret, .call0 0, .jp 0, .call 0, .seVxNn 0 0, .sneVxNn 0 0, .seVxVy 0 0, .ldVxNn 0 0, .addVxNn 0 0,
   .ldVxVy 0 0, .or 0 0, .and 0 0, .xor 0 0, .addVxVy 0 0, .sub 0 0, .shr 0, .subn 0 0, .shl 0, .sneVxVy 0 0,
   .ldINnn 0, .jpV0 0, .rnd 0 0, .drw 0 0 0, .skp 0, .sknp 0] ++
  [.ldVxDt 0, .ldVxK 0, .ldDtVx 0, .ldStVx 0, .addIVx 0, .ldFVx 0, .ldBVx 0, .ldMiVx 0, .ldVxMi 0]

/-- The 35 rows of spec/opcode_table.json, in its order. -/
def opcodeTable : List OpcodeRow := rowRepresentatives.map Instr.row

end Sys2Proof
end

