-- ==== Sys2Proof/Machine/State.lean ====
section
/-! DEFINITION. The state of the machine: everything R20 of 10_state.md lists, and three fields of the model's own. Plain data. -/

namespace Sys2Proof.Machine

/-- The four causes of a fatal condition (R15, R211 of 60_exceptions.md). -/
inductive FatalCause where
  /-- A byte access above 0xFFF (R213): the fetch, DRW, LD B, LD [I], LD Vx [I]. -/
  | outOfBounds
  /-- A call at `SP = 15` (R214). -/
  | stackOverflow
  /-- RET at `SP = 0` (R215). -/
  | stackUnderflow
  /-- A word that is none of the 35 instructions (R217). -/
  | invalidOpcode
  deriving DecidableEq, Repr

/-- The fault record `(cause, opcode, addr)` of R212. `opcode` is `none` exactly for a fault of the fetch, where "no word
was formed" (log 2). -/
structure FaultRecord where
  cause  : FatalCause
  opcode : Option Word
  addr   : Word
  deriving DecidableEq, Repr

/-- What the host raises once its listed events are used up (log 30). -/
inductive Onward where
  /-- The listed events over and over without end; of an empty list, `step` over and over. -/
  | cycle (es : List Event)
  /-- The free events from the k-th on: any sequence at all. -/
  | free (k : Nat)
  deriving DecidableEq, Repr

/-- Memory: the addresses whose byte is not 0, strictly rising (Machine/Ops.lean; log 20). -/
abbrev Memory := List Host.Cell

/-- The display: 32 rows of 64 one-bit cells, `fb[row][col]` (R30, R176 of 44_display.md). -/
abbrev Framebuffer := Vector (Vector Bool 64) 32

/-- The state of the machine (R20). -/
structure State where
  /-- `V[0..15]`, the general registers; `V[15]` is the flag register VF (R21, R32). -/
  v : Vector Byte 16
  /-- `I`, the index register (R24). -/
  i : Word
  /-- `PC`, the program counter; in the execute phase already the address after the instruction (R23). -/
  pc : Word
  /-- `SP`, the number of return addresses on the call stack, 0 to 15 (R25). -/
  sp : Fin 16
  /-- `STACK[0..15]`, outside memory (R26). -/
  stack : Vector Word 16
  /-- `DT`, the delay timer (R27). -/
  dt : Byte
  /-- `ST`, the sound timer (R27). -/
  st : Byte
  /-- `KEY`, the key latch (R28). -/
  key : Option KeyNumber
  /-- `MEM[0x000..0xFFF]` (R29). -/
  mem : Memory
  /-- `FB`, the display buffer (R30). -/
  fb : Framebuffer
  /-- `HALT`: the fault record once a fatal condition has been raised (R31). -/
  halt : Option FaultRecord
  /-- THE MODEL'S OWN: the host's events still to come, oldest first (log 6). -/
  events : List Event
  /-- THE MODEL'S OWN: what the host raises after them, without end (log 30). -/
  after : Onward
  /-- THE MODEL'S OWN: how many bytes `rnd_in` has delivered (log 5). -/
  rndCount : Nat
  deriving DecidableEq, Repr

/-- The state after `reset` and the loading of the font `font` at 0x000 (R20, R29, R240, R242): every other byte of memory is
0. A program is loaded from outside (log 7). -/
def State.resetWith (font : FontImage) : State where
  v := Vector.replicate 16 0
  i := 0
  pc := Config.pcReset
  sp := 0
  stack := Vector.replicate 16 0
  dt := 0
  st := 0
  key := none
  mem := cellsFrom Config.fontBase font.toList
  fb := Vector.replicate 32 (Vector.replicate 64 false)
  halt := none
  events := []
  after := .cycle []
  rndCount := 0

/-- The state after `reset` with the default font (R57; log 8) and a host that raises nothing but `step` (log 6, log 30). -/
def State.reset : State := State.resetWith defaultFont

/-- The one way a step stops. -/
inductive Fault where
  /-- Raised by a `step` event of a machine whose HALT already holds a record: "every later `step` changes no state and
  returns `Fatal(HALT)`", and "A model treats the halted state as a fault" (R106). Safe: the hardware does nothing
  either (log 1). -/
  | halted (r : FaultRecord)
  deriving DecidableEq, Repr

/-- Why the model gives no next state. -/
inductive Refusal where
  /-- Raised by an arm of `exec` for an instruction without a meaning. No arm does so now. Safe. -/
  | notModelled (mnemonic : String)
  /-- Raised by the loader (`load`, and so by a `boot` event) for `offset + length > 0x1000`: nothing is written and no run starts (R59, R223). Safe: it is
  the spec's own refusal (log 25). -/
  | programTooLarge
  deriving DecidableEq, Repr

/-- What a step or a meaning answers. -/
abbrev Result := Host.Outcome State Fault Refusal

end Sys2Proof.Machine
end

