-- ==== Sys2Proof/Machine/Operands.lean ====
section
/-! DEFINITION. Operand forms (R78 of 30_encoding.md, R161 of 43_index_memory.md): widenings, effective addresses, the
decimal digits, the register range, the key comparison, and the cells of a sprite. -/

namespace Sys2Proof.Machine

/-- `zext_16(nnn)`: a 12-bit address in a 16-bit register (R78). -/
def zextAddr (nnn : Addr12) : Word := nnn.setWidth 16

/-- `zext_16(v)`: a register value in a 16-bit computation (R78). -/
def zextByte (b : Byte) : Word := b.setWidth 16

/-- `EA(k) = (I + k) mod 2^16`, the one data addressing mode (R161). -/
def ea (base : Word) (k : Nat) : Word := base + BitVec.ofNat 16 k

/-- `I <- Vx * 5` at 16 bits, all eight bits of `Vx` (R163; decision D17; log 16). -/
def glyphAddress (b : Byte) : Word := zextByte b * BitVec.ofNat 16 Config.glyphBytes

/-- The hundreds, tens and ones digits of a byte, each as a binary byte 0 to 9 (R164). -/
def bcdDigits (b : Byte) : List Byte :=
  [BitVec.ofNat 8 (b.toNat / 100), BitVec.ofNat 8 (b.toNat / 10 % 10), BitVec.ofNat 8 (b.toNat % 10)]

/-- The sixteen register numbers in ascending order. -/
def allRegs : List RegIdx := [0, 1, 2, 3, 4, 5, 6, 7, 8, 9, 10, 11, 12, 13, 14, 15]

/-- The registers `V0..Vx` inclusive, ascending (R166, R167). -/
def regsUpTo (x : RegIdx) : List RegIdx := allRegs.take (x.val + 1)

/-- `zext_8(KEY)`: a key number as a byte (R196, R198). -/
def keyByte (k : KeyNumber) : Byte := BitVec.ofNat 8 k.val

/-- `KEY matches Vx`: the latch holds a key number equal to all eight bits of `Vx` (R198; decision D18; log 16). -/
def keyMatches (key : Option KeyNumber) (b : Byte) : Bool :=
  match key with
  | none => false
  | some k => keyByte k == b

/-- One pixel of a sprite: the cell it falls on and its bit. -/
structure Pixel where
  row : Fin 32
  col : Fin 64
  bit : Bool
  deriving DecidableEq, Repr

/-- The pixel of sprite row `r` and column `c`: column 0 is bit 7 of the byte, the cell is
`((x0 + c) mod 64, (y0 + r) mod 32)` (R176, R178). -/
def spritePixel (x0 y0 : Byte) (r : Nat) (b : Byte) (c : Nat) : Pixel where
  row := Fin.ofNat 32 (y0.toNat + r)
  col := Fin.ofNat 64 (x0.toNat + c)
  bit := b.getLsbD (7 - c)

/-- The eight columns of a sprite row, in the order they are drawn (R178). -/
def spriteColumns : List Nat := [0, 1, 2, 3, 4, 5, 6, 7]

/-- The pixels of the sprite bytes from sprite row `r` on, row by row and column by column (R178). -/
def spritePixels (x0 y0 : Byte) : Nat → List Byte → List Pixel
  | _, [] => []
  | r, b :: bs => spriteColumns.map (spritePixel x0 y0 r b) ++ spritePixels x0 y0 (r + 1) bs

end Sys2Proof.Machine
end

