-- ==== Sys2Proof/Machine/Flags.lean ====
section
/-! DEFINITION. The conditions the flag-writing instructions put into VF (R32 of 10_state.md, R153 of 42_register_alu.md).
The flag is the whole register V[15], written 0 or 1. The collision flag of DRW comes from the sprite unit (Ops.lean). -/

namespace Sys2Proof.Machine

/-- A flag as the byte VF receives: 0 or 1 (R32). -/
def flagByte (f : Bool) : Byte := if f then 1 else 0

/-- ADD Vx, Vy: 1 if the 9-bit sum exceeds 255 (R146). -/
def carryFlag (a b : Byte) : Byte := flagByte (decide (a.toNat + b.toNat > 255))

/-- SUB and SUBN: 1 if there is NO borrow in `a - b`, that is `a >= b` (R147, R149, R153). -/
def noBorrowFlag (a b : Byte) : Byte := flagByte (decide (b.toNat ≤ a.toNat))

/-- SHR: the bit shifted out at the right (R148). -/
def lowBitFlag (a : Byte) : Byte := flagByte (a.getLsbD 0)

/-- SHL: the bit shifted out at the left (R150). -/
def highBitFlag (a : Byte) : Byte := flagByte (a.getLsbD 7)

/-- ADD I, Vx: 1 if the NEW value of I exceeds 0x0FFF; not a carry (R162). -/
def indexFlag (t : Word) : Byte := flagByte (decide (t.toNat > 0x0FFF))

end Sys2Proof.Machine
end

