-- ==== Sys2Proof/Machine/Ops.lean ====
section
/-! DEFINITION. The named operations over the state: memory, registers, taking a fatal condition, the call stack, the
byte loops of the memory instructions, the sprite unit. -/

namespace Sys2Proof.Machine

/-! ## Memory (20_memory.md)

A `Memory` lists, by strictly rising address, the bytes that are not 0. -/

/-- What an unlisted address reads as: memory is "created zero-filled at startup" (R29, R240; log 20). -/
def Memory.emptyByte : Byte := 0

/-- `MEM[a]`. -/
def Memory.read : Memory → Nat → Byte
  | [], _ => Memory.emptyByte
  | (b, w) :: rest, a =>
    if a < b then Memory.emptyByte
    else if a = b then w
    else Memory.read rest a

/-- `MEM[a] <- v`, keeping the canonical form: a byte equal to what an unlisted address reads as is not listed. -/
def Memory.write : Memory → Nat → Byte → Memory
  | [], a, v => if v = Memory.emptyByte then [] else [(a, v)]
  | (b, w) :: rest, a, v =>
    if a < b then (if v = Memory.emptyByte then (b, w) :: rest else (a, v) :: (b, w) :: rest)
    else if a = b then (if v = Memory.emptyByte then rest else (a, v) :: rest)
    else (b, w) :: Memory.write rest a v

/-- Every address from `lo` on, strictly rising, inside `MEM`, and no entry equal to what an unlisted address reads as. -/
def Memory.wfFrom : Nat → Memory → Bool
  | _, [] => true
  | lo, (a, v) :: rest =>
    decide (lo ≤ a) && decide (a < Config.memSize) && decide (v ≠ Memory.emptyByte) && Memory.wfFrom (a + 1) rest

/-- The canonical form of memory. -/
def Memory.wf (m : Memory) : Bool := Memory.wfFrom 0 m

/-- Successive bytes from address `a` on, as the loader copies them (R59). -/
def Memory.writeBytes : Memory → Nat → List Byte → Memory
  | m, _, [] => m
  | m, a, b :: bs => Memory.writeBytes (Memory.write m a b) (a + 1) bs

/-- Whether a 16-bit address lies inside `MEM`; nothing is masked (R14, R50). -/
def inMem (a : Word) : Bool := decide (a.toNat < Config.memSize)

/-- `MemRead(a, 1)`: the byte, or the offending address (R14). -/
def memRead (s : State) (a : Word) : Except Word Byte :=
  if inMem a then .ok (s.mem.read a.toNat) else .error a

/-- `MemWrite(a, 1, v)`: the state with the byte stored, or the offending address and nothing written (R14). -/
def memWrite (s : State) (a : Word) (b : Byte) : Except Word State :=
  if inMem a then .ok { s with mem := s.mem.write a.toNat b } else .error a

/-! ## Registers (10_state.md) -/

/-- `V[r]` (R13). -/
def State.getV (s : State) (r : RegIdx) : Byte := s.v.get r

/-- `V[r] <- b` (R13); no register is hardwired (R21). -/
def State.setV (s : State) (r : RegIdx) (b : Byte) : State := { s with v := s.v.set r.val b r.isLt }

/-- `V[15] <- f`, the flag register (R32). -/
def State.setVF (s : State) (f : Byte) : State := s.setV 15 f

/-- `I <- w`. -/
def State.setI (s : State) (w : Word) : State := { s with i := w }

/-- `PC <- w`; no target is checked (R120). -/
def State.setPC (s : State) (w : Word) : State := { s with pc := w }

/-- `DT <- b`. -/
def State.setDT (s : State) (b : Byte) : State := { s with dt := b }

/-- `ST <- b`. -/
def State.setST (s : State) (b : Byte) : State := { s with st := b }

/-- `KEY <- k`. -/
def State.setKey (s : State) (k : Option KeyNumber) : State := { s with key := k }

/-- `FB <- f`. -/
def State.setFB (s : State) (f : Framebuffer) : State := { s with fb := f }

/-- The next random byte: `rnd_in` sampled once, and the model's counter moved on (R191; log 4, log 5). -/
def State.drawRandom (s : State) : State := { s with rndCount := s.rndCount + 1 }

/-- `rnd_in` as this execution of RND samples it: a free value (R191; log 4). -/
def State.rndIn (s : State) : Byte := Config.rndIn s.rndCount

/-! ## Taking a fatal condition (R15, R212, R216, R219)

There is no handler, no vector, no saved program counter and no mode: "Its whole effect is `HALT <- record` and the step
result `Fatal(record)`" (R219). There is NO return from it (R220): the only way out is `reset` (Machine/Events.lean). -/

/-- `raise Fatal.<Cause>`: HALT receives the record; everything else keeps the value it has at that point (R216). -/
def State.raise (s : State) (cause : FatalCause) (opcode : Option Word) (addr : Word) : State :=
  { s with halt := some ⟨cause, opcode, addr⟩ }

/-- The address the executing instruction was fetched from, `PC - 2` in the execute phase (R23, R212). -/
def State.fetchedFrom (s : State) : Word := s.pc - 2

/-- A fatal condition of the execute phase whose record names the instruction's own address (R212): InvalidOpcode,
StackOverflow, StackUnderflow. -/
def fatalHere (cause : FatalCause) (op : Word) (s : State) : Result := .next (s.raise cause (some op) s.fetchedFrom)

/-- An OutOfBounds of the execute phase: the word of the executing instruction and the offending address (R212). -/
def fatalBounds (op : Word) (a : Word) (s : State) : Result := .next (s.raise .outOfBounds (some op) a)

/-! ## The call stack (R121, R122 of 41_control_transfer.md) -/

/-- `MAX_CALL_DEPTH` (R7; decision D7; log 11): the `SP` at which a call overflows. -/
def maxCallDepth : Fin 16 := 15

/-- `STACK[SP] <- v`, then `SP <- SP + 1` (R121), at an `SP` below the greatest depth. -/
def State.pushed (s : State) (w : Word) : State :=
  { s with stack := s.stack.set s.sp.val w s.sp.isLt, sp := s.sp + 1 }

/-- `Push(v)`: nothing when the stack is full (R121). -/
def push (s : State) (w : Word) : Option State :=
  if s.sp = maxCallDepth then none else some (s.pushed w)

/-- `Pop()`: `SP <- SP - 1`, then `STACK[SP]`; nothing when the stack is empty (R122). -/
def pop (s : State) : Option (Word × State) :=
  if s.sp = 0 then none else some (s.stack.get (s.sp - 1), { s with sp := s.sp - 1 })

/-- A call: push the return address `PC`, then `PC <- zext_16(nnn)`; both call instructions do this (R124, R127). -/
def callTo (op : Word) (nnn : Addr12) (s : State) : Result :=
  match push s s.pc with
  | some s' => .next (s'.setPC (zextAddr nnn))
  | none => fatalHere .stackOverflow op s

/-- A skip: `PC <- (PC + 2) mod 2^16` when the condition holds (R132). -/
def skipIf (c : Bool) (s : State) : State := if c then s.setPC (s.pc + 2) else s

/-! ## The byte loops of the memory instructions (R54, R56, R161): ascending, each byte checked when it is moved -/

/-- Store bytes from address `a` on; the bytes before a faulting one stay written (R164, R166, R216). -/
def storeBytes (op : Word) : List Byte → Word → State → Result
  | [], _, s => .next s
  | b :: bs, a, s =>
    match memWrite s a b with
    | .ok s' => storeBytes op bs (ea a 1) s'
    | .error bad => fatalBounds op bad s

/-- Load registers from address `a` on; the registers before a faulting one stay loaded (R167, R216). -/
def loadRegs (op : Word) : List RegIdx → Word → State → Result
  | [], _, s => .next s
  | r :: rs, a, s =>
    match memRead s a with
    | .ok b => loadRegs op rs (ea a 1) (s.setV r b)
    | .error bad => fatalBounds op bad s

/-- Read `n` bytes from address `a` on, or the first offending address (R179). -/
def readBytes (s : State) : Nat → Word → Except Word (List Byte)
  | 0, _ => .ok []
  | n + 1, a =>
    match memRead s a with
    | .ok b =>
      match readBytes s n (ea a 1) with
      | .ok bs => .ok (b :: bs)
      | .error bad => .error bad
    | .error bad => .error bad

/-! ## The sprite unit (R176, R178 of 44_display.md) -/

/-- `FB[row][col]`. -/
def Framebuffer.cell (f : Framebuffer) (row : Fin 32) (col : Fin 64) : Bool := (f.get row).get col

/-- `FB[row][col] <- b`. -/
def Framebuffer.setCell (f : Framebuffer) (row : Fin 32) (col : Fin 64) (b : Bool) : Framebuffer :=
  f.set row.val ((f.get row).set col.val b col.isLt) row.isLt

/-- All cells 0 (R177). -/
def Framebuffer.clear : Framebuffer := Vector.replicate 32 (Vector.replicate 64 false)

/-- Draw one pixel: a 1 bit on a lit cell is a collision, and the cell becomes its exclusive or with the bit (R178). -/
def plot (acc : Framebuffer × Bool) (p : Pixel) : Framebuffer × Bool :=
  (acc.1.setCell p.row p.col (xor (acc.1.cell p.row p.col) p.bit),
   acc.2 || (p.bit && acc.1.cell p.row p.col))

/-- `draw_sprite(x0, y0, bytes) -> collision` (R178). -/
def drawSprite (f : Framebuffer) (x0 y0 : Byte) (bytes : List Byte) : Framebuffer × Bool :=
  (spritePixels x0 y0 0 bytes).foldl plot (f, false)

/-! ## Fetch (R51, R101, R102) -/

/-- `op = MEM[PC] ++ MEM[PC+1]`, or the offending address; `PC` is read before `PC + 1` (R102, R218). -/
def fetchWord (s : State) : Except Word Word :=
  match memRead s s.pc with
  | .error bad => .error bad
  | .ok hi =>
    match memRead s (s.pc + 1) with
    | .error bad => .error bad
    | .ok lo => .ok (wordOfBytes hi lo)

end Sys2Proof.Machine
end

