-- ==== Sys2Proof/Machine/Alu.lean ====
section
/-! DEFINITION. Register loads and the ALU family (42_register_alu.md). Operands are the register contents at entry; where
a result and a flag are both written, the writes stand in the rule's order and the later one wins (R13, R152; log 14). -/

namespace Sys2Proof.Machine

/-- LD Vx, nn (R140). -/
def execLdVxNn (x : RegIdx) (nn : Byte) (s : State) : Result := .next (s.setV x nn)

/-- ADD Vx, nn (R141): no flag. -/
def execAddVxNn (x : RegIdx) (nn : Byte) (s : State) : Result := .next (s.setV x (s.getV x + nn))

/-- LD Vx, Vy (R142). -/
def execLdVxVy (x y : RegIdx) (s : State) : Result := .next (s.setV x (s.getV y))

/-- OR Vx, Vy (R143): VF is not a flag here. -/
def execOr (x y : RegIdx) (s : State) : Result := .next (s.setV x (s.getV x ||| s.getV y))

/-- AND Vx, Vy (R144). -/
def execAnd (x y : RegIdx) (s : State) : Result := .next (s.setV x (s.getV x &&& s.getV y))

/-- XOR Vx, Vy (R145). -/
def execXor (x y : RegIdx) (s : State) : Result := .next (s.setV x (s.getV x ^^^ s.getV y))

/-- ADD Vx, Vy (R146): result, then carry. -/
def execAddVxVy (x y : RegIdx) (s : State) : Result :=
  .next ((s.setV x (s.getV y + s.getV x)).setVF (carryFlag (s.getV y) (s.getV x)))

/-- SUB Vx, Vy (R147): result, then no-borrow. -/
def execSub (x y : RegIdx) (s : State) : Result :=
  .next ((s.setV x (s.getV x - s.getV y)).setVF (noBorrowFlag (s.getV x) (s.getV y)))

/-- SHR Vx (R148): flag, then result. -/
def execShr (x : RegIdx) (s : State) : Result :=
  .next ((s.setVF (lowBitFlag (s.getV x))).setV x (s.getV x >>> 1))

/-- SUBN Vx, Vy (R149): result, then no-borrow of `Vy - Vx`. -/
def execSubn (x y : RegIdx) (s : State) : Result :=
  .next ((s.setV x (s.getV y - s.getV x)).setVF (noBorrowFlag (s.getV y) (s.getV x)))

/-- SHL Vx (R150): flag, then result. -/
def execShl (x : RegIdx) (s : State) : Result :=
  .next ((s.setVF (highBitFlag (s.getV x))).setV x (s.getV x <<< 1))

end Sys2Proof.Machine
end

