-- ==== Sys2Proof/Machine/Control.lean ====
section
/-! DEFINITION. The control transfer instructions (41_control_transfer.md). `s.pc` is already `A + 2` (R104); none of them
writes a `V` register. -/

namespace Sys2Proof.Machine

/-- RET (R123): `PC <- Pop()`; StackUnderflow when `SP = 0`. -/
def execRet (s : State) : Result :=
  match pop s with
  | some (target, s') => .next (s'.setPC target)
  | none => fatalHere .stackUnderflow (encode .ret) s

/-- CALL0 nnn (R124): as CALL. -/
def execCall0 (nnn : Addr12) (s : State) : Result := callTo (encode (.call0 nnn)) nnn s

/-- JP nnn (R125). -/
def execJp (nnn : Addr12) (s : State) : Result := .next (s.setPC (zextAddr nnn))

/-- CALL nnn (R127). -/
def execCall (nnn : Addr12) (s : State) : Result := callTo (encode (.call nnn)) nnn s

/-- SE Vx, nn (R128). -/
def execSeVxNn (x : RegIdx) (nn : Byte) (s : State) : Result := .next (skipIf (s.getV x == nn) s)

/-- SNE Vx, nn (R129). -/
def execSneVxNn (x : RegIdx) (nn : Byte) (s : State) : Result := .next (skipIf (s.getV x != nn) s)

/-- SE Vx, Vy (R130). -/
def execSeVxVy (x y : RegIdx) (s : State) : Result := .next (skipIf (s.getV x == s.getV y) s)

/-- SNE Vx, Vy (R131). -/
def execSneVxVy (x y : RegIdx) (s : State) : Result := .next (skipIf (s.getV x != s.getV y) s)

/-- JP V0, nnn (R126): relative to the advanced program counter, as the spec's source says (C5; log 17). -/
def execJpV0 (nnn : Addr12) (s : State) : Result :=
  .next (s.setPC (s.pc + zextByte (s.getV 0) + zextAddr nnn))

end Sys2Proof.Machine
end

