-- ==== Sys2Proof/Machine/Display.lean ====
section
/-! DEFINITION. The display instructions (44_display.md). -/

namespace Sys2Proof.Machine

/-- CLS (R177). -/
def execCls (s : State) : Result := .next (s.setFB Framebuffer.clear)

/-- DRW Vx, Vy, n (R179): all reads first, then the draw, then VF, the coordinates being the values at entry. -/
def execDrw (x y : RegIdx) (n : Fin 16) (s : State) : Result :=
  match readBytes s n.val (ea s.i 0) with
  | .error bad => fatalBounds (encode (.drw x y n)) bad s
  | .ok bytes =>
    let drawn := drawSprite s.fb (s.getV x) (s.getV y) bytes
    .next ((s.setFB drawn.1).setVF (flagByte drawn.2))

end Sys2Proof.Machine
end

