-- ==== Sys2Proof/Machine/IndexMemory.lean ====
section
/-! DEFINITION. The index register and memory instructions (43_index_memory.md). `I` is not changed by an instruction that
uses it as an address (R161; decision D16; log 13). -/

namespace Sys2Proof.Machine

/-- LD I, nnn (R160). -/
def execLdINnn (nnn : Addr12) (s : State) : Result := .next (s.setI (zextAddr nnn))

/-- ADD I, Vx (R162): the flag tests the NEW value of `I`. -/
def execAddIVx (x : RegIdx) (s : State) : Result :=
  .next ((s.setI (s.i + zextByte (s.getV x))).setVF (indexFlag (s.i + zextByte (s.getV x))))

/-- LD F, Vx (R163). -/
def execLdFVx (x : RegIdx) (s : State) : Result := .next (s.setI (glyphAddress (s.getV x)))

/-- LD B, Vx (R164): hundreds, tens, ones at `EA(0)`, `EA(1)`, `EA(2)`. -/
def execLdBVx (x : RegIdx) (s : State) : Result :=
  storeBytes (encode (.ldBVx x)) (bcdDigits (s.getV x)) (ea s.i 0) s

/-- LD [I], Vx (R166): `V0..Vx` inclusive into memory. -/
def execLdMiVx (x : RegIdx) (s : State) : Result :=
  storeBytes (encode (.ldMiVx x)) ((regsUpTo x).map s.getV) (ea s.i 0) s

/-- LD Vx, [I] (R167): memory into `V0..Vx` inclusive. -/
def execLdVxMi (x : RegIdx) (s : State) : Result :=
  loadRegs (encode (.ldVxMi x)) (regsUpTo x) (ea s.i 0) s

end Sys2Proof.Machine
end

