-- ==== Sys2Proof/Machine/TimerKeyRandom.lean ====
section
/-! DEFINITION. Random, key and timer instructions (45_timer_key_random.md). -/

namespace Sys2Proof.Machine

/-- RND Vx, nn (R191): a free byte and the mask. -/
def execRnd (x : RegIdx) (nn : Byte) (s : State) : Result := .next (s.drawRandom.setV x (s.rndIn &&& nn))

/-- LD Vx, DT (R192). -/
def execLdVxDt (x : RegIdx) (s : State) : Result := .next (s.setV x s.dt)

/-- LD DT, Vx (R193). -/
def execLdDtVx (x : RegIdx) (s : State) : Result := .next (s.setDT (s.getV x))

/-- LD ST, Vx (R197). -/
def execLdStVx (x : RegIdx) (s : State) : Result := .next (s.setST (s.getV x))

/-- SKP Vx (R194): compare, then consume the latch in every case. -/
def execSkp (x : RegIdx) (s : State) : Result :=
  .next ((skipIf (keyMatches s.key (s.getV x)) s).setKey none)

/-- SKNP Vx (R195). -/
def execSknp (x : RegIdx) (s : State) : Result :=
  .next ((skipIf (!keyMatches s.key (s.getV x)) s).setKey none)

/-- LD Vx, K (R196): with no key latched the fetch advance is undone and nothing else changes (the step reports
AwaitingKey); with a key, the key number goes to `Vx` (decision D12; log 15) and the latch is consumed. -/
def execLdVxK (x : RegIdx) (s : State) : Result :=
  match s.key with
  | none => .next (s.setPC (s.pc - 2))
  | some k => .next ((s.setV x (keyByte k)).setKey none)

end Sys2Proof.Machine
end

