-- ==== Sys2Proof/Machine/Events.lean ====
section
/-! DEFINITION. What acts on the state besides the CPU: the timer unit, the key latch's input, `reset`, the loader; and
what the host sees of the state (R8, R9 of 00_scope.md; 60_exceptions.md; 70_reset_and_hazards.md). -/

namespace Sys2Proof.Machine

/-- One timer down by one, floor 0 (R226). -/
def countDown (b : Byte) : Byte := if b = 0 then 0 else b - 1

/-- `tick()` (R226). It acts on a halted machine too (R106; decision D8; log 26). -/
def State.tick (s : State) : State := { s with dt := countDown s.dt, st := countDown s.st }

/-- `reset`: every piece of state to its reset value, the font loaded (R240, R242); the host's schedule and the supply of
random bytes, which are the model's own, go on (log 7). -/
def State.hostReset (s : State) (font : FontImage) : State :=
  { State.resetWith font with events := s.events, after := s.after, rndCount := s.rndCount }

/-- `load(offset, bytes)`, for the host between `reset` and the first `step` only; a load that does not fit is refused
and writes nothing (R59, R223; log 25). -/
def load (offset : Nat) (bytes : List Byte) (s : State) : Result :=
  if offset + bytes.length ≤ Config.memSize then .next { s with mem := s.mem.writeBytes offset bytes }
  else .refused .programTooLarge

/-- The launch state of a font and a program: `reset`, the font, the program at 0x200 (R242). -/
def launch (font : FontImage) (program : List Byte) : Result :=
  load Config.programBase program (State.resetWith font)

/-- A `boot` event: `reset`, at any time and in the halted state too (R240; decision D26), then the loads of R242. -/
def State.boot (s : State) (font : FontImage) (program : List Byte) : Result :=
  load Config.programBase program (s.hostReset font)

/-- `sound_on`: 1 exactly when the sound timer is not zero (R229; log 27). -/
def State.soundOn (s : State) : Bool := s.st != 0

/-- `fb[y][x]` as the host reads it (R230). -/
def State.pixel (s : State) (row : Fin 32) (col : Fin 64) : Bool := s.fb.cell row col

end Sys2Proof.Machine
end

