-- ==== Sys2Proof/Machine/Cycle.lean ====
section
/-! DEFINITION. One `step` of the CPU: fetch, decode, execute (R101 to R106 of 40_step_cycle.md), what it reports (R105),
and the placing of an instruction where the next fetch reads it. -/

namespace Sys2Proof.Machine

/-- The execute phase of a fetched word, on the state whose `PC` has been advanced; a word that is no instruction raises
InvalidOpcode with the word and the address it was fetched from (R103, R104, R217). -/
def executeWord (op : Word) (s : State) : Result :=
  match decodeWord op with
  | some i => exec i s
  | none => fatalHere .invalidOpcode op s

/-- `step()` (R101): halted, it changes nothing (R106; log 1); a fetch that cannot complete raises OutOfBounds with `PC`
not advanced and no word in the record (R102, R212; log 19); otherwise `PC <- PC + 2` and the word is executed. -/
def stepCpu (s : State) : Result :=
  match s.halt with
  | some r => .fault (.halted r)
  | none =>
    match fetchWord s with
    | .error bad => .next (s.raise .outOfBounds none bad)
    | .ok op => executeWord op (s.setPC (s.pc + 2))

/-- The host's next event and the state with it taken: the oldest listed one; after those, as `after` says, the events of its
list over and over, or the free events (R62, R100). Whether ticks and key events ever cease is NOT settled here: a state may
hold either kind of host (log 6, log 30). -/
def State.takeEvent (s : State) : Event × State :=
  match s.events with
  | e :: es => (e, { s with events := es })
  | [] =>
    match s.after with
    | .cycle [] => (.step, s)
    | .cycle (e :: es) => (e, { s with events := es })
    | .free k => (Config.hostEvent k, { s with after := .free (k + 1) })

/-- What an event does (R100). -/
def State.perform (s : State) : Event → Result
  | .step => stepCpu s
  | .tick => .next s.tick
  | .setKey k => .next (s.setKey k)
  | .boot font program => s.boot font program

/-- The host's next event, at its turn (R62, R100). -/
def nextEvent (s : State) : Result := s.takeEvent.2.perform s.takeEvent.1

/-- The `status` of a step (R105). -/
inductive Status where
  | ok
  | awaitingKey
  | fatal (r : FaultRecord)
  deriving DecidableEq, Repr

/-- The machine awaits a key: it runs, the word at `PC` is LD Vx, K, and no key is latched (R36). -/
def State.awaitsKey (s : State) : Bool :=
  s.halt.isNone && s.key.isNone &&
  match fetchWord s with
  | .error _ => false
  | .ok op =>
    match decodeWord op with
    | some (.ldVxK _) => true
    | _ => false

/-- What a `step` from this state reports, a function of the state before it (R105, R106). -/
def State.status (s : State) : Status :=
  match s.halt with
  | some r => .fatal r
  | none =>
    if s.awaitsKey then .awaitingKey
    else
      match stepCpu s with
      | .next t => match t.halt with
        | some r => .fatal r
        | none => .ok
      | _ => .ok

/-- `op` at the two bytes from `a` on, big-endian (R51). -/
def placeWord (m : Memory) (a : Nat) (op : Word) : Memory := (m.write a (highByte op)).write (a + 1) (lowByte op)

/-- The state whose very next event fetches and runs the word `op`: the word stands at `PC` (at the reset vector where
`PC` is no address a fetch can complete at), a `step` comes before the host's other events, and HALT is clear (log 22). -/
def State.placeNext (s : State) (op : Word) : State :=
  let a : Word := if s.pc.toNat + 1 < Config.memSize then s.pc else Config.pcReset
  { s with pc := a, mem := placeWord s.mem a.toNat op, events := .step :: s.events, halt := none }

end Sys2Proof.Machine
end

