-- ==== Sys2Proof/Machine/Step.lean ====
section
/-! DEFINITION. The machine's step, the next event of a run (R100 of 40_step_cycle.md), and where the host puts an
instruction to see it run. -/

namespace Sys2Proof.Machine

/-- One step of the model: the next event. -/
def step : State → Host.Outcome State Fault Refusal := nextEvent

/-- `s` with the instruction whose bits are `w`, as spec/opcode_table.json numbers them, stored where the next step fetches. -/
def State.withFetchWord (s : State) (nbits w : Nat) : State := s.placeNext (tableWord nbits w)

end Sys2Proof.Machine
end

