-- ==== Sys2Proof/Safety.lean ====
section
/-! DEFINITION. What a safe run is: no fatal condition in it (R106: the halted state "is never a final state of a
successful run"), and the invariant of the machine's runs. -/

namespace Sys2Proof.Machine

/-- The machine runs: no fatal condition has been raised (R31). -/
def State.running (s : State) : Bool := s.halt.isNone

/-- `n` events from `s`, none of which leaves the machine halted. -/
def SafeFor : Nat → State → Prop
  | 0, s => s.running = true
  | n + 1, s => s.running = true ∧ ∃ t, step s = .next t ∧ SafeFor n t

/-- A run without a fatal condition. -/
def Safe (s : State) : Prop := ∀ n, SafeFor n s

/-- What holds in every state of a run: memory is canonical; `PC` stays below 0x20FF, so its wrap is never reached (R23:
after a fetch at most 0x1000, and JP V0 adds at most 255 + 4095); a stack entry is a value `PC` had after a fetch, at most
0x1000 (R23, R121); and STACK[15] is never written (R26). -/
structure State.Inv (s : State) : Prop where
  memory_canonical : s.mem.wf = true
  pc_bounded : s.pc.toNat ≤ 0x20FE
  stack_bounded : ∀ k : Fin 16, (s.stack.get k).toNat ≤ 0x1000
  last_entry_unused : s.stack.get 15 = 0

end Sys2Proof.Machine
end

