-- ==== Sys2Proof/Certificates/Slice0/Obligations.lean ====
section
/-! DEFINITION. The statements for the provers. What they say of an instruction is said of `exec` in the execute phase,
where `PC` is already the address after the instruction (R104); O6 says that a step is the fetch advance and then `exec`. -/

namespace Sys2Proof.Claim

open Sys2Proof.Machine

/-- The pieces of the state, for saying what stays as it was. -/
inductive Part where
  | v | i | pc | sp | stack | dt | st | key | mem | fb | halt | events | after | rndCount
  deriving DecidableEq, Repr

/-- The piece has the same value in both states; memory is compared through the reading of each byte. -/
def Same (s t : State) : Part → Prop
  | .v => ∀ r, t.getV r = s.getV r
  | .i => t.i = s.i
  | .pc => t.pc = s.pc
  | .sp => t.sp = s.sp
  | .stack => ∀ k, t.stack.get k = s.stack.get k
  | .dt => t.dt = s.dt
  | .st => t.st = s.st
  | .key => t.key = s.key
  | .mem => ∀ a, t.mem.read a = s.mem.read a
  | .fb => ∀ row col, t.fb.cell row col = s.fb.cell row col
  | .halt => t.halt = s.halt
  | .events => t.events = s.events
  | .after => t.after = s.after
  | .rndCount => t.rndCount = s.rndCount

/-- THE FRAME: every piece but the listed ones is unchanged. -/
def UnchangedBut (changed : List Part) (s t : State) : Prop := ∀ p, p ∉ changed → Same s t p

/-- The next event of `s` is `e`, and `s'` is `s` with that event taken: the oldest listed event; where none is listed, the
first of a list raised over and over (`step` where that list is empty), or the next free event (log 6, log 30). -/
def EventIsNext (s : State) (e : Event) (s' : State) : Prop :=
  (∃ es, s.events = e :: es ∧ s' = { s with events := es }) ∨
  (s.events = [] ∧ s.after = .cycle [] ∧ e = .step ∧ s' = s) ∨
  (∃ es, s.events = [] ∧ s.after = .cycle (e :: es) ∧ s' = { s with events := es }) ∨
  (∃ k, s.events = [] ∧ s.after = .free k ∧ e = Config.hostEvent k ∧ s' = { s with after := .free (k + 1) })

/-- The next event of `s` is `step`, and `s'` is `s` with that event taken. -/
def StepIsNext (s s' : State) : Prop := EventIsNext s .step s'

/-- The word a fetch at `PC` reads: the byte at `PC` is the high one. -/
def fetched (s : State) : Word := s.mem.read s.pc.toNat ++ s.mem.read (s.pc.toNat + 1)

/-- A flag's byte: 1 where the condition holds, else 0. -/
def oneIf (c : Prop) [Decidable c] : Byte := if c then 1 else 0

/-- The bit a sprite of `n` rows at `MEM[I]`, drawn at `(x0, y0)`, puts on the cell `(row, col)`; 0 where it does not
cover the cell. Sprite row `r` falls on screen row `y0 + r` modulo 32, column `c` (bit `7 - c`) on `x0 + c` modulo 64. -/
def spriteBit (s : State) (x0 y0 : Byte) (n : Nat) (row : Fin 32) (col : Fin 64) : Bool :=
  let r := (row.val + 256 - y0.toNat) % 32
  let c := (col.val + 256 - x0.toNat) % 64
  decide (r < n) && decide (c < 8) && (s.mem.read (ea s.i r).toNat).getLsbD (7 - c)

/-- Whether all `n` bytes from `MEM[I]` on exist. -/
def InBounds (s : State) (n : Nat) : Prop := n = 0 ∨ s.i.toNat + n ≤ 0x1000

/-- The first address beyond memory among the bytes from `I` on. -/
def firstBad (s : State) : Word := if s.i.toNat ≤ 0xFFF then 0x1000 else s.i

/-- When the execute phase of an instruction raises a fatal condition, and which (R211). -/
def raises (s : State) : Instr → Option FatalCause
  | .ret => if s.sp = 0 then some .stackUnderflow else none
  | .call0 _ | .call _ => if s.sp = 15 then some .stackOverflow else none
  | .drw _ _ n => if n.val = 0 ∨ s.i.toNat + n.val ≤ 0x1000 then none else some .outOfBounds
  | .ldBVx _ => if s.i.toNat + 3 ≤ 0x1000 then none else some .outOfBounds
  | .ldMiVx x | .ldVxMi x => if s.i.toNat + (x.val + 1) ≤ 0x1000 then none else some .outOfBounds
  | _ => none

/-- The three decimal digits of a byte, hundreds first, each as a byte. -/
def decimalDigits (b : Byte) : List Byte :=
  [BitVec.ofNat 8 (b.toNat / 100), BitVec.ofNat 8 (b.toNat / 10 % 10), BitVec.ofNat 8 (b.toNat % 10)]

/-- The default font as R57 prints it, by digit. -/
def printedFont : List Byte :=
  [0xF0, 0x90, 0x90, 0x90, 0xF0] ++ [0x20, 0x60, 0x20, 0x20, 0x70] ++
  [0xF0, 0x10, 0xF0, 0x80, 0xF0] ++ [0xF0, 0x10, 0xF0, 0x10, 0xF0] ++
  [0x90, 0x90, 0xF0, 0x10, 0x10] ++ [0xF0, 0x80, 0xF0, 0x10, 0xF0] ++
  [0xF0, 0x80, 0xF0, 0x90, 0xF0] ++ [0xF0, 0x10, 0x20, 0x40, 0x40] ++
  [0xF0, 0x90, 0xF0, 0x90, 0xF0] ++ [0xF0, 0x90, 0xF0, 0x10, 0xF0] ++
  [0xF0, 0x90, 0xF0, 0x90, 0x90] ++ [0xE0, 0x90, 0xE0, 0x90, 0xE0] ++
  [0xF0, 0x80, 0x80, 0x80, 0xF0] ++ [0xE0, 0x90, 0x90, 0x90, 0xE0] ++
  [0xF0, 0x80, 0xF0, 0x80, 0xF0] ++ [0xF0, 0x80, 0xF0, 0x80, 0x80]

/-- Apply a change to the next state of a result. -/
def onNext (f : State → State) : Result → Result
  | .next t => .next (f t)
  | .fault e => .fault e
  | .refused e => .refused e

end Sys2Proof.Claim

open Sys2Proof Sys2Proof.Machine Sys2Proof.Claim

/-! ## Encoding -/

/-- Decoding the bytes of a well-formed instruction gives it back, with the bytes after it (R75, R79, R80).
Choices it rests on: the opcode numbers are general knowledge (log 9); which words of family 0 are CALL0 is the spec's
decision D5 (log 10); the shifts' don't-care nibble is encoded as 0 (log 29). -/
def Obligations.DecodeOfEncodeGivesTheInstruction : Prop :=
  ∀ (i : Instr) (rest : List Byte), i.wellFormed = true → decode (encodeBytes i ++ rest) = .ok (i, rest)

/-- A decoded word is the word its instruction encodes to, but that the don't-care nibble of SHR and SHL is written 0
(R84, R90); and what is decoded is well-formed.
Choices it rests on: the opcode numbers are general knowledge (log 9); which words of family 0 are CALL0 is the spec's
decision D5 (log 10); writing the shifts' don't-care nibble as 0 is the model's (log 29). -/
def Obligations.EncodeOfDecodedWordGivesTheWord : Prop :=
  ∀ (op : Word) (i : Instr), decodeWord op = some i →
    i.wellFormed = true ∧
    (((∃ x, i = .shr x ∨ i = .shl x) ∧ encode i = op &&& 0xFF0F) ∨
     ((∀ x, i ≠ .shr x ∧ i ≠ .shl x) ∧ encode i = op))

/-- The invalid words are exactly the five families' of R83.
Choices it rests on: the opcode numbers are general knowledge (log 9). -/
def Obligations.InvalidWordsAreTheListedOnes : Prop :=
  ∀ op : Word, decodeWord op = none ↔
    (op.toNat / 4096 = 0x5 ∧ op.toNat % 16 ≠ 0) ∨
    (op.toNat / 4096 = 0x8 ∧ op.toNat % 16 ∈ [0x8, 0x9, 0xA, 0xB, 0xC, 0xD, 0xF]) ∨
    (op.toNat / 4096 = 0x9 ∧ op.toNat % 16 ≠ 0) ∨
    (op.toNat / 4096 = 0xE ∧ op.toNat % 256 ∉ [0x9E, 0xA1]) ∨
    (op.toNat / 4096 = 0xF ∧ op.toNat % 256 ∉ [0x07, 0x0A, 0x15, 0x18, 0x1E, 0x29, 0x33, 0x55, 0x65])

/-- A word selects a row of the opcode table exactly when it decodes to an instruction of that row (R92).
Choices it rests on: the opcode numbers are general knowledge (log 9); which words of family 0 are CALL0 is the spec's
decision D5 (log 10). -/
def Obligations.WordSelectsRowExactlyWhenDecodedSo : Prop :=
  ∀ (op : Word) (r : OpcodeRow), r ∈ opcodeTable →
    (r.selects op = true ↔ ∃ i, decodeWord op = some i ∧ i.row = r)

/-- Words of the spec's decoding table (95_test_vectors.md 2.1), one or more of each of the families
0 to F. The opcode numbers are general knowledge (log 9), and that 0x01E0 is CALL0, not CLS, is the spec's decision D5, a choice (log 10). -/
def Obligations.SampleWordsDecode : Prop :=
  decodeWord 0x00E0 = some .cls ∧ decodeWord 0x00EE = some .ret ∧ decodeWord 0x0000 = some (.call0 0x000) ∧
  decodeWord 0x01E0 = some (.call0 0x1E0) ∧ decodeWord 0x1234 = some (.jp 0x234) ∧
  decodeWord 0x2ABC = some (.call 0xABC) ∧ decodeWord 0x4B00 = some (.sneVxNn 0xB 0x00) ∧
  decodeWord 0x6CFF = some (.ldVxNn 0xC 0xFF) ∧ decodeWord 0x7D01 = some (.addVxNn 0xD 0x01) ∧
  decodeWord 0x9120 = some (.sneVxVy 1 2) ∧ decodeWord 0xA123 = some (.ldINnn 0x123) ∧
  decodeWord 0x3A42 = some (.seVxNn 0xA 0x42) ∧ decodeWord 0x5120 = some (.seVxVy 1 2) ∧ decodeWord 0x5121 = none ∧
  decodeWord 0x8AB5 = some (.sub 0xA 0xB) ∧ decodeWord 0x8AF6 = some (.shr 0xA) ∧ decodeWord 0xB010 = some (.jpV0 0x010) ∧
  decodeWord 0xC30F = some (.rnd 3 0x0F) ∧ decodeWord 0xD125 = some (.drw 1 2 5) ∧ decodeWord 0xE2A1 = some (.sknp 2) ∧
  decodeWord 0xF51E = some (.addIVx 5) ∧ decodeWord 0xF533 = some (.ldBVx 5) ∧ decodeWord 0xFF65 = some (.ldVxMi 0xF)

/-! ## The step -/

/-- A step whose fetched word decodes to an instruction is the fetch advance `PC <- PC + 2` and then `exec` of that
instruction (R101, R102, R104).
Choices it rests on: the schedule is the model's own (log 6, log 30). -/
def Obligations.StepRunsTheDecodedInstruction : Prop :=
  ∀ (s s' : State) (i : Instr), StepIsNext s s' → s.halt = none → s.pc.toNat ≤ 0xFFE →
    decodeWord (fetched s) = some i → step s = exec i (s'.setPC (s.pc + 2))

/-- A fetch beyond memory raises OutOfBounds with the first offending address and no word, and changes nothing else, `PC`
neither (R102, R212, R216).
Choices it rests on: that PC is not advanced is the spec's decision D29 (log 19); that a fatal condition sets HALT is
the spec's decision D8 (log 1); the record's content is the spec's decision D9 (log 3); the absent word is the model's
(log 2); the schedule is the model's own (log 6, log 30). -/
def Obligations.FetchBeyondMemoryRaisesOutOfBounds : Prop :=
  ∀ (s s' : State), StepIsNext s s' → s.halt = none → 0xFFF ≤ s.pc.toNat →
    step s = .next { s' with
      halt := some ⟨.outOfBounds, none, if s.pc.toNat = 0xFFF then 0x1000 else s.pc⟩ }

/-- A word that is no instruction raises InvalidOpcode with the word and the address it was fetched from; `PC` has been
advanced and nothing else changes (R212, R216, R217).
Choices it rests on: that a fatal condition sets HALT is the spec's decision D8 (log 1); what else the fault leaves is
its decision D10 (log 18); the schedule is the model's own (log 6, log 30). -/
def Obligations.InvalidWordRaisesInvalidOpcode : Prop :=
  ∀ (s s' : State), StepIsNext s s' → s.halt = none → s.pc.toNat ≤ 0xFFE → decodeWord (fetched s) = none →
    step s = .next { s' with pc := s.pc + 2, halt := some ⟨.invalidOpcode, some (fetched s), s.pc⟩ }

/-- A halted machine executes nothing: a `step` of it stops with a fault that names the record (R106: "A model treats the
halted state as a fault").
Choices it rests on: that the machine stays halted is the spec's decision D8; its form as a fault is the model's (log
1); the schedule is the model's own (log 6, log 30). -/
def Obligations.HaltedMachineExecutesNothing : Prop :=
  ∀ (s s' : State) (r : FaultRecord), StepIsNext s s' → s.halt = some r → step s = .fault (.halted r)

/-- A running machine always takes its next event: no instruction is refused and none stops the model (R105, R211).
Choices it rests on: that a fatal condition is a next state with HALT set is the spec's decision D8 and the model's
form of it (log 1); that a key wait completes is the spec's decision D11 (log 28); the schedule is the model's own
(log 6, log 30). -/
def Obligations.RunningMachineAlwaysSteps : Prop :=
  ∀ s : State, s.halt = none → (∀ font p s', ¬ EventIsNext s (.boot font p) s') → ∃ t, step s = .next t

/-- The execute phase of every instruction answers a next state, and raises a fatal condition exactly where R211 lists
one, with the listed cause; without one HALT is unchanged.
Choices it rests on: the call bound is the spec's decision D7 (log 11); that a fatal condition sets HALT is the spec's
decision D8 (log 1). -/
def Obligations.FatalConditionsAreExactlyTheListed : Prop :=
  ∀ (i : Instr) (s : State), s.halt = none →
    ∃ t, exec i s = .next t ∧ t.halt.map FaultRecord.cause = raises s i

/-- A store is seen by the next fetch: after LD [I], Vx or LD B, Vx each byte of the word fetched at `PC` is the byte
stored there where the store covers it, and the byte that stood there where it does not (R65; `EA(k) = I + k`: R161).
Choices it rests on: the canonical form of memory is the model's own (log 20). -/
def Obligations.StoreIsSeenByTheNextFetch : Prop :=
  ∀ (x : RegIdx) (s : State), s.mem.wf = true → s.pc.toNat ≤ 0xFFE →
    (s.i.toNat + (x.val + 1) ≤ 0x1000 →
      ∃ t, exec (.ldMiVx x) s = .next t ∧ t.pc = s.pc ∧
        let byte := fun a : Nat =>
          if s.i.toNat ≤ a ∧ a ≤ s.i.toNat + x.val then s.getV (Fin.ofNat 16 (a - s.i.toNat)) else s.mem.read a
        fetched t = byte s.pc.toNat ++ byte (s.pc.toNat + 1)) ∧
    (s.i.toNat + 3 ≤ 0x1000 →
      ∃ t, exec (.ldBVx x) s = .next t ∧ t.pc = s.pc ∧
        let byte := fun a : Nat =>
          if s.i.toNat ≤ a ∧ a < s.i.toNat + 3 then (decimalDigits (s.getV x)).getD (a - s.i.toNat) 0 else s.mem.read a
        fetched t = byte s.pc.toNat ++ byte (s.pc.toNat + 1))

/-- JP to its own address is an endless loop: the step changes nothing but that the event is taken (R107, R125).
Choices it rests on: the opcode numbers are general knowledge (log 9); the schedule is the model's own (log 6, log
30). -/
def Obligations.SelfJumpChangesNothing : Prop :=
  ∀ (s s' : State) (nnn : Addr12), StepIsNext s s' → s.halt = none → s.pc.toNat ≤ 0xFFE →
    s.pc.toNat = nnn.toNat → fetched s = encode (.jp nnn) → step s = .next s'

/-! ## Register loads and the ALU -/

/-- LD Vx, nn; LD Vx, Vy; OR; AND; XOR write Vx and nothing else (R140, R142 to R145). -/
def Obligations.LoadsAndLogicWriteVxOnly : Prop :=
  ∀ (x y : RegIdx) (nn : Byte) (s : State),
    (∃ t, exec (.ldVxNn x nn) s = .next t ∧ t.getV x = nn ∧ (∀ r, r ≠ x → t.getV r = s.getV r) ∧
      UnchangedBut [.v] s t) ∧
    (∃ t, exec (.ldVxVy x y) s = .next t ∧ t.getV x = s.getV y ∧ (∀ r, r ≠ x → t.getV r = s.getV r) ∧
      UnchangedBut [.v] s t) ∧
    (∃ t, exec (.or x y) s = .next t ∧
      (∀ k < 8, (t.getV x).getLsbD k = ((s.getV x).getLsbD k || (s.getV y).getLsbD k)) ∧
      (∀ r, r ≠ x → t.getV r = s.getV r) ∧ UnchangedBut [.v] s t) ∧
    (∃ t, exec (.and x y) s = .next t ∧
      (∀ k < 8, (t.getV x).getLsbD k = ((s.getV x).getLsbD k && (s.getV y).getLsbD k)) ∧
      (∀ r, r ≠ x → t.getV r = s.getV r) ∧ UnchangedBut [.v] s t) ∧
    (∃ t, exec (.xor x y) s = .next t ∧
      (∀ k < 8, (t.getV x).getLsbD k = ((s.getV x).getLsbD k ^^ (s.getV y).getLsbD k)) ∧
      (∀ r, r ≠ x → t.getV r = s.getV r) ∧ UnchangedBut [.v] s t)

/-- ADD Vx, nn: modulo 256, and no other register changes, VF neither (R141). -/
def Obligations.AddImmediateWrapsWithoutFlag : Prop :=
  ∀ (x : RegIdx) (nn : Byte) (s : State),
    ∃ t, exec (.addVxNn x nn) s = .next t ∧ (t.getV x).toNat = ((s.getV x).toNat + nn.toNat) % 256 ∧
      (∀ r, r ≠ x → t.getV r = s.getV r) ∧ UnchangedBut [.v] s t

/-- ADD, SUB, SUBN on registers: Vx receives the result modulo 256, then VF the carry or the no-borrow, which stands where
x = F (R146, R147, R149).
Choices it rests on: the case x = F is the spec's decision D15 (log 14). -/
def Obligations.AddAndSubtractSetResultThenFlag : Prop :=
  ∀ (x y : RegIdx) (s : State),
    (∃ t, exec (.addVxVy x y) s = .next t ∧
      (x ≠ 15 → (t.getV x).toNat = ((s.getV y).toNat + (s.getV x).toNat) % 256) ∧
      t.getV 15 = oneIf ((s.getV y).toNat + (s.getV x).toNat > 255) ∧
      (∀ r, r ≠ x → r ≠ 15 → t.getV r = s.getV r) ∧ UnchangedBut [.v] s t) ∧
    (∃ t, exec (.sub x y) s = .next t ∧
      (x ≠ 15 → (t.getV x).toNat = ((s.getV x).toNat + 256 - (s.getV y).toNat) % 256) ∧
      t.getV 15 = oneIf ((s.getV x).toNat ≥ (s.getV y).toNat) ∧
      (∀ r, r ≠ x → r ≠ 15 → t.getV r = s.getV r) ∧ UnchangedBut [.v] s t) ∧
    (∃ t, exec (.subn x y) s = .next t ∧
      (x ≠ 15 → (t.getV x).toNat = ((s.getV y).toNat + 256 - (s.getV x).toNat) % 256) ∧
      t.getV 15 = oneIf ((s.getV y).toNat ≥ (s.getV x).toNat) ∧
      (∀ r, r ≠ x → r ≠ 15 → t.getV r = s.getV r) ∧ UnchangedBut [.v] s t)

/-- SHR and SHL: VF receives the bit shifted out, then Vx the shifted value, which stands where x = F (R148, R150).
Choices it rests on: the case x = F is the spec's decision D15 (log 14). -/
def Obligations.ShiftsSetFlagThenResult : Prop :=
  ∀ (x : RegIdx) (s : State),
    (∃ t, exec (.shr x) s = .next t ∧ (t.getV x).toNat = (s.getV x).toNat / 2 ∧
      (x ≠ 15 → (t.getV 15).toNat = (s.getV x).toNat % 2) ∧
      (∀ r, r ≠ x → r ≠ 15 → t.getV r = s.getV r) ∧ UnchangedBut [.v] s t) ∧
    (∃ t, exec (.shl x) s = .next t ∧ (t.getV x).toNat = (s.getV x).toNat * 2 % 256 ∧
      (x ≠ 15 → (t.getV 15).toNat = (s.getV x).toNat / 128) ∧
      (∀ r, r ≠ x → r ≠ 15 → t.getV r = s.getV r) ∧ UnchangedBut [.v] s t)

/-! ## Control transfer -/

/-- JP loads `nnn`; JP V0 adds `V0 + nnn` to the advanced `PC` (R125, R126). The target of JP V0 is a choice: the one the spec
takes from its source (C5 of 90_conflicts.md; log 17), not the conventional `V0 + nnn`. -/
def Obligations.JumpsLoadTheirTarget : Prop :=
  ∀ (nnn : Addr12) (s : State),
    (∃ t, exec (.jp nnn) s = .next t ∧ t.pc.toNat = nnn.toNat ∧ UnchangedBut [.pc] s t) ∧
    (∃ t, exec (.jpV0 nnn) s = .next t ∧
      t.pc.toNat = (s.pc.toNat + (s.getV 0).toNat + nnn.toNat) % 65536 ∧ UnchangedBut [.pc] s t)

/-- The four skips on registers add 2 to the advanced `PC` exactly on their condition (R128 to R131). -/
def Obligations.SkipsAddTwoOnTheirCondition : Prop :=
  ∀ (x y : RegIdx) (nn : Byte) (s : State),
    (∃ t, exec (.seVxNn x nn) s = .next t ∧ UnchangedBut [.pc] s t ∧
      t.pc.toNat = (if s.getV x = nn then (s.pc.toNat + 2) % 65536 else s.pc.toNat)) ∧
    (∃ t, exec (.sneVxNn x nn) s = .next t ∧ UnchangedBut [.pc] s t ∧
      t.pc.toNat = (if s.getV x = nn then s.pc.toNat else (s.pc.toNat + 2) % 65536)) ∧
    (∃ t, exec (.seVxVy x y) s = .next t ∧ UnchangedBut [.pc] s t ∧
      t.pc.toNat = (if s.getV x = s.getV y then (s.pc.toNat + 2) % 65536 else s.pc.toNat)) ∧
    (∃ t, exec (.sneVxVy x y) s = .next t ∧ UnchangedBut [.pc] s t ∧
      t.pc.toNat = (if s.getV x = s.getV y then s.pc.toNat else (s.pc.toNat + 2) % 65536))

/-- RET: `SP` down by one, `PC` the entry there, the stack's entries unchanged; on an empty stack StackUnderflow, and
nothing else changes (R122, R123).
Choices it rests on: that a fatal condition sets HALT is the spec's decision D8 (log 1); what else the fault leaves is
its decision D10 (log 18). -/
def Obligations.ReturnPopsTheCallStack : Prop :=
  ∀ s : State,
    (s.sp ≠ 0 → ∃ t, exec .ret s = .next t ∧ t.sp.val + 1 = s.sp.val ∧ t.pc = s.stack.get t.sp ∧
      UnchangedBut [.sp, .pc] s t) ∧
    (s.sp = 0 → ∃ t r, exec .ret s = .next t ∧ t.halt = some r ∧ r.cause = .stackUnderflow ∧
      UnchangedBut [.halt] s t)

/-- CALL0 and CALL push the advanced `PC` at `STACK[SP]`, count `SP` up, and load `nnn`; at `SP = 15` StackOverflow, and
nothing else changes (R121, R124, R127).
Choices it rests on: the call bound is the spec's decision D7 (log 11); the order of the push is its inference (log
11); that a fatal condition sets HALT is the spec's decision D8 (log 1); what else the fault leaves is its decision
D10 (log 18). -/
def Obligations.CallsPushTheReturnAddress : Prop :=
  ∀ (nnn : Addr12) (s : State) (i : Instr), i = .call0 nnn ∨ i = .call nnn →
    (s.sp ≠ 15 → ∃ t, exec i s = .next t ∧ t.stack.get s.sp = s.pc ∧
      (∀ k, k ≠ s.sp → t.stack.get k = s.stack.get k) ∧ t.sp.val = s.sp.val + 1 ∧ t.pc.toNat = nnn.toNat ∧
      UnchangedBut [.stack, .sp, .pc] s t) ∧
    (s.sp = 15 → ∃ t r, exec i s = .next t ∧ t.halt = some r ∧ r.cause = .stackOverflow ∧ UnchangedBut [.halt] s t)

/-- The records of the two stack faults name the executing word and the address it was fetched from (R212).
Choices it rests on: that a call at SP = 15 raises StackOverflow is the spec's decision D7 (log 11); the record's
content is the spec's decision D9 (log 3); that a fatal condition sets HALT is the spec's decision D8 (log 1); what
else the fault leaves is its decision D10 (log 18); the opcode numbers are general knowledge (log 9). -/
def Obligations.StackFaultRecordsNameTheInstruction : Prop :=
  ∀ (nnn : Addr12) (s : State),
    (s.sp = 0 → exec .ret s = .next { s with halt := some ⟨.stackUnderflow, some 0x00EE, s.pc - 2⟩ }) ∧
    (s.sp = 15 → ∃ op, op.toNat = 0x2000 + nnn.toNat ∧
      exec (.call nnn) s = .next { s with halt := some ⟨.stackOverflow, some op, s.pc - 2⟩ }) ∧
    (s.sp = 15 → ∃ op, op.toNat = nnn.toNat ∧
      exec (.call0 nnn) s = .next { s with halt := some ⟨.stackOverflow, some op, s.pc - 2⟩ })

/-- A return after a call comes back to the address after the call, with `SP` as before, wherever the subroutine's code has
led `PC` (R123, R127; 95_test_vectors.md S5).
Choices it rests on: the order of the push is the spec's inference and the call bound its decision D7 (log 11). -/
def Obligations.ReturnUndoesACall : Prop :=
  ∀ (nnn : Addr12) (s : State) (i : Instr) (w : Word), i = .call0 nnn ∨ i = .call nnn → s.sp ≠ 15 →
    ∃ t u, exec i s = .next t ∧ exec .ret (t.setPC w) = .next u ∧ u.pc = s.pc ∧ u.sp = s.sp

/-! ## Index register and memory -/

/-- LD I loads `nnn`; ADD I adds `Vx` modulo 65536 and sets VF exactly when the NEW `I` exceeds 0x0FFF (R160, R162). -/
def Obligations.IndexLoadAndAdd : Prop :=
  ∀ (x : RegIdx) (nnn : Addr12) (s : State),
    (∃ t, exec (.ldINnn nnn) s = .next t ∧ t.i.toNat = nnn.toNat ∧ UnchangedBut [.i] s t) ∧
    (∃ t, exec (.addIVx x) s = .next t ∧ t.i.toNat = (s.i.toNat + (s.getV x).toNat) % 65536 ∧
      t.getV 15 = oneIf (t.i.toNat > 0x0FFF) ∧ (∀ r, r ≠ 15 → t.getV r = s.getV r) ∧ UnchangedBut [.i, .v] s t)

/-- LD F: `I = Vx * 5` without loss (R163); for a digit it is the
address of the digit's glyph.
Choices it rests on: that all eight bits count is the spec's decision D17 (log 16). -/
def Obligations.GlyphAddressIsFiveTimesVx : Prop :=
  ∀ (x : RegIdx) (s : State),
    ∃ t, exec (.ldFVx x) s = .next t ∧ t.i.toNat = (s.getV x).toNat * 5 ∧ UnchangedBut [.i] s t

/-- LD B writes the three decimal digits at `EA(0)`, `EA(1)`, `EA(2)` and no other byte, where they all exist (R164).
Choices it rests on: that I is unchanged is the spec's decision D16 (log 13); the canonical form of memory is the
model's own (log 20). -/
def Obligations.StoreBcdWritesThreeDigits : Prop :=
  ∀ (x : RegIdx) (s : State), s.mem.wf = true → s.i.toNat + 3 ≤ 0x1000 →
    ∃ t, exec (.ldBVx x) s = .next t ∧
      (t.mem.read (ea s.i 0).toNat).toNat = (s.getV x).toNat / 100 ∧
      (t.mem.read (ea s.i 1).toNat).toNat = (s.getV x).toNat / 10 % 10 ∧
      (t.mem.read (ea s.i 2).toNat).toNat = (s.getV x).toNat % 10 ∧
      (∀ a, (∀ k < 3, a ≠ (ea s.i k).toNat) → t.mem.read a = s.mem.read a) ∧ UnchangedBut [.mem] s t

/-- LD [I], Vx writes `V0..Vx` at `EA(0)..EA(x)` and no other byte, where they all exist (R166).
Choices it rests on: that I is unchanged is the spec's decision D16 (log 13); the canonical form of memory is the
model's own (log 20). -/
def Obligations.StoreRegistersWritesTheRange : Prop :=
  ∀ (x : RegIdx) (s : State), s.mem.wf = true → s.i.toNat + (x.val + 1) ≤ 0x1000 →
    ∃ t, exec (.ldMiVx x) s = .next t ∧
      (∀ k : RegIdx, k ≤ x → t.mem.read (ea s.i k.val).toNat = s.getV k) ∧
      (∀ a, (∀ k : RegIdx, k ≤ x → a ≠ (ea s.i k.val).toNat) → t.mem.read a = s.mem.read a) ∧ UnchangedBut [.mem] s t

/-- LD Vx, [I] reads `V0..Vx` from `EA(0)..EA(x)` and changes no other register, where the bytes all exist (R167).
Choices it rests on: that I is unchanged is the spec's decision D16 (log 13). -/
def Obligations.LoadRegistersReadsTheRange : Prop :=
  ∀ (x : RegIdx) (s : State), s.i.toNat + (x.val + 1) ≤ 0x1000 →
    ∃ t, exec (.ldVxMi x) s = .next t ∧
      (∀ k : RegIdx, k ≤ x → t.getV k = s.mem.read (ea s.i k.val).toNat) ∧
      (∀ k : RegIdx, x < k → t.getV k = s.getV k) ∧ UnchangedBut [.v] s t

/-- A store that runs beyond memory raises OutOfBounds at the first address beyond it; the bytes before that address are
written, no other byte is, and nothing else changes (R164, R166, R216).
Choices it rests on: that a fatal condition sets HALT is the spec's decision D8 (log 1); the record's content is the
spec's decision D9 (log 3); what else the fault leaves are its decisions D10 and D19 (log 18); that I is unchanged is
its decision D16 (log 13); the opcode numbers are general knowledge (log 9); the canonical form of memory is the
model's own (log 20). -/
def Obligations.StoreFaultKeepsEarlierBytes : Prop :=
  ∀ (x : RegIdx) (s : State), s.mem.wf = true →
    (0x1000 < s.i.toNat + (x.val + 1) →
      ∃ t, exec (.ldMiVx x) s = .next t ∧ t.halt = some ⟨.outOfBounds, some (encode (.ldMiVx x)), firstBad s⟩ ∧
        (∀ k : RegIdx, k ≤ x → s.i.toNat + k.val ≤ 0xFFF → t.mem.read (s.i.toNat + k.val) = s.getV k) ∧
        (∀ a, (∀ k : RegIdx, k ≤ x → s.i.toNat + k.val ≤ 0xFFF → a ≠ s.i.toNat + k.val) →
          t.mem.read a = s.mem.read a) ∧ UnchangedBut [.mem, .halt] s t) ∧
    (0x1000 < s.i.toNat + 3 →
      ∃ t, exec (.ldBVx x) s = .next t ∧ t.halt = some ⟨.outOfBounds, some (encode (.ldBVx x)), firstBad s⟩ ∧
        (s.i.toNat ≤ 0xFFF → (t.mem.read s.i.toNat).toNat = (s.getV x).toNat / 100) ∧
        (s.i.toNat = 0xFFE → (t.mem.read 0xFFF).toNat = (s.getV x).toNat / 10 % 10) ∧
        (∀ a, (0xFFF < a ∨ a < s.i.toNat) → t.mem.read a = s.mem.read a) ∧ UnchangedBut [.mem, .halt] s t)

/-- A load that runs beyond memory raises OutOfBounds at the first address beyond it; the registers before it are loaded,
no other register changes, and nothing else does (R167, R216).
Choices it rests on: that a fatal condition sets HALT is the spec's decision D8 (log 1); the record's content is the
spec's decision D9 (log 3); what else the fault leaves are its decisions D10 and D19 (log 18); that I is unchanged is
its decision D16 (log 13); the opcode numbers are general knowledge (log 9). -/
def Obligations.LoadFaultKeepsEarlierRegisters : Prop :=
  ∀ (x : RegIdx) (s : State), 0x1000 < s.i.toNat + (x.val + 1) →
    ∃ t, exec (.ldVxMi x) s = .next t ∧ t.halt = some ⟨.outOfBounds, some (encode (.ldVxMi x)), firstBad s⟩ ∧
      (∀ k : RegIdx, k ≤ x → s.i.toNat + k.val ≤ 0xFFF → t.getV k = s.mem.read (s.i.toNat + k.val)) ∧
      (∀ k : RegIdx, x < k ∨ 0xFFF < s.i.toNat + k.val → t.getV k = s.getV k) ∧ UnchangedBut [.v, .halt] s t

/-! ## Display -/

/-- CLS turns every cell off and changes nothing else, VF neither (R177). -/
def Obligations.ClearScreenTurnsEveryCellOff : Prop :=
  ∀ s : State, ∃ t, exec .cls s = .next t ∧ (∀ row col, t.pixel row col = false) ∧ UnchangedBut [.fb] s t

/-- DRW: every cell becomes its exclusive or with the sprite's bit on it, wrapping in both directions; VF is 1 exactly when
some lit cell is covered by a 1 bit; nothing else changes, where the sprite's bytes all exist (R176, R178, R179, R180).
Choices it rests on: that I is unchanged is the spec's decision D16 (log 13). -/
def Obligations.DrawXorsTheSpriteAndReportsCollision : Prop :=
  ∀ (x y : RegIdx) (n : Fin 16) (s : State), InBounds s n.val →
    ∃ t, exec (.drw x y n) s = .next t ∧
      (∀ row col, t.pixel row col = (s.pixel row col ^^ spriteBit s (s.getV x) (s.getV y) n.val row col)) ∧
      (t.getV 15 = 0 ∨ t.getV 15 = 1) ∧
      (t.getV 15 = 1 ↔ ∃ row col, s.pixel row col = true ∧
        spriteBit s (s.getV x) (s.getV y) n.val row col = true) ∧
      (∀ r, r ≠ 15 → t.getV r = s.getV r) ∧ UnchangedBut [.v, .fb] s t

/-- Drawing the same sprite twice at the same coordinates restores the screen (R180). It rests on DRW leaving `I` as it was,
the spec's decision D16, a choice (log 13). -/
def Obligations.DrawingTwiceRestoresTheScreen : Prop :=
  ∀ (x y : RegIdx) (n : Fin 16) (s : State), InBounds s n.val →
    ∃ t u, exec (.drw x y n) s = .next t ∧ exec (.drw x y n) { t with v := s.v } = .next u ∧
      (∀ row col, u.pixel row col = s.pixel row col) ∧
      ((∀ row col, s.pixel row col = false) → t.getV 15 = 0 ∧ (u.getV 15 = 0 ∨ u.getV 15 = 1) ∧
        (u.getV 15 = 1 ↔ ∃ row col, spriteBit s (s.getV x) (s.getV y) n.val row col = true))

/-- DRW with a sprite that runs beyond memory raises OutOfBounds at the first address beyond it and draws nothing: all
reads come first (R179, R212, R216).
Choices it rests on: that a fatal condition sets HALT is the spec's decision D8 (log 1); the record's content is the
spec's decision D9 (log 3); what else the fault leaves is its decision D10 (log 18); that I is unchanged is its
decision D16 (log 13); the opcode numbers are general knowledge (log 9). -/
def Obligations.DrawBeyondMemoryDrawsNothing : Prop :=
  ∀ (x y : RegIdx) (n : Fin 16) (s : State), ¬ InBounds s n.val →
    exec (.drw x y n) s = .next { s with halt := some ⟨.outOfBounds, some (encode (.drw x y n)), firstBad s⟩ }

/-! ## Random, keys, timers -/

/-- RND: the free byte of this execution under the mask; the bits the mask clears are 0 (R191).
Choices it rests on: that the byte is free is the spec's decision D13 (log 4); the counter is the model's own (log 5). -/
def Obligations.RandomByteIsMasked : Prop :=
  ∀ (x : RegIdx) (nn : Byte) (s : State),
    ∃ t, exec (.rnd x nn) s = .next t ∧
      (∀ k < 8, (t.getV x).getLsbD k = ((Config.rndIn s.rndCount).getLsbD k && nn.getLsbD k)) ∧
      (∀ r, r ≠ x → t.getV r = s.getV r) ∧ t.rndCount = s.rndCount + 1 ∧ UnchangedBut [.v, .rndCount] s t

/-- SKP and SKNP compare the latch with all of `Vx`, skip on a match or a mismatch, and consume the latch in every case
(R194, R195, R198).
Choices it rests on: the width of the comparison is the spec's decision D18 (log 16). -/
def Obligations.KeySkipsConsumeTheLatch : Prop :=
  ∀ (x : RegIdx) (s : State),
    (∃ t, exec (.skp x) s = .next t ∧ t.key = none ∧ UnchangedBut [.pc, .key] s t ∧
      ((∃ k, s.key = some k ∧ k.val = (s.getV x).toNat) → t.pc = s.pc + 2) ∧
      ((∀ k, s.key = some k → k.val ≠ (s.getV x).toNat) → t.pc = s.pc)) ∧
    (∃ t, exec (.sknp x) s = .next t ∧ t.key = none ∧ UnchangedBut [.pc, .key] s t ∧
      ((∃ k, s.key = some k ∧ k.val = (s.getV x).toNat) → t.pc = s.pc) ∧
      ((∀ k, s.key = some k → k.val ≠ (s.getV x).toNat) → t.pc = s.pc + 2))

/-- LD Vx, K with a key latched: the key number to Vx, the latch consumed (R196).
Choices it rests on: where the number goes is general knowledge, the spec's decision D12 (log 15). -/
def Obligations.WaitForKeyTakesTheLatchedKey : Prop :=
  ∀ (x : RegIdx) (k : KeyNumber) (s : State), s.key = some k →
    ∃ t, exec (.ldVxK x) s = .next t ∧ (t.getV x).toNat = k.val ∧ t.key = none ∧
      (∀ r, r ≠ x → t.getV r = s.getV r) ∧ UnchangedBut [.v, .key] s t

/-- A step of LD Vx, K with no key latched changes nothing but that the event is taken, and reports AwaitingKey
(R105, R108, R196).
Choices it rests on: the form of the wait is the spec's decision D11 (log 28); the opcode numbers are general
knowledge (log 9); the schedule is the model's own (log 6, log 30). -/
def Obligations.WaitingStepChangesNothing : Prop :=
  ∀ (x : RegIdx) (s s' : State), StepIsNext s s' → s.halt = none → s.pc.toNat ≤ 0xFFE →
    fetched s = encode (.ldVxK x) → s.key = none → step s = .next s' ∧ s.status = .awaitingKey

/-- LD Vx, DT; LD DT, Vx; LD ST, Vx move the byte, and `sound_on` follows ST at once (R192, R193, R197; that `sound_on` is a
function of the state is the spec's decision D22, a choice, R229, log 27). -/
def Obligations.TimerInstructionsMoveTheByte : Prop :=
  ∀ (x : RegIdx) (s : State),
    (∃ t, exec (.ldVxDt x) s = .next t ∧ t.getV x = s.dt ∧ (∀ r, r ≠ x → t.getV r = s.getV r) ∧
      UnchangedBut [.v] s t) ∧
    (∃ t, exec (.ldDtVx x) s = .next t ∧ t.dt = s.getV x ∧ UnchangedBut [.dt] s t) ∧
    (∃ t, exec (.ldStVx x) s = .next t ∧ t.st = s.getV x ∧ (t.soundOn = true ↔ s.getV x ≠ 0) ∧
      UnchangedBut [.st] s t)

/-! ## The other agents -/

/-- `k` ticks take each timer from `v` to `max(v - k, 0)`, independently, and change nothing else (R226). -/
def Obligations.TicksCountBothTimersDownToZero : Prop :=
  ∀ (k : Nat) (s : State),
    ((State.tick^[k]) s).dt.toNat = s.dt.toNat - k ∧ ((State.tick^[k]) s).st.toNat = s.st.toNat - k ∧
    UnchangedBut [.dt, .st] s ((State.tick^[k]) s)

/-- A `tick` and a `set_key` event at their turn act whatever the CPU is doing, on a halted machine too; a second `set_key`
replaces the first (R226, R228).
Choices it rests on: that both act on a halted machine is the spec's decision D8 (log 26); the schedule is the model's
own (log 6, log 30). -/
def Obligations.TickAndSetKeyActAtTheirTurn : Prop :=
  ∀ (s s' : State),
    (EventIsNext s .tick s' →
      ∃ t, step s = .next t ∧ t.dt.toNat = s.dt.toNat - 1 ∧ t.st.toNat = s.st.toNat - 1 ∧
        UnchangedBut [.dt, .st] s' t) ∧
    (∀ k, EventIsNext s (.setKey k) s' → ∃ t, step s = .next t ∧ t.key = k ∧ UnchangedBut [.key] s' t) ∧
    (∀ j k es, s.events = .setKey j :: .setKey k :: es →
      ∃ t u, step s = .next t ∧ step t = .next u ∧ u.key = k ∧ u.events = es ∧ UnchangedBut [.key, .events] s u)

/-- A `boot` event, in any state, the halted one too, gives the launch state of its font and program: every register at its
reset value, the font at 0, the program at 0x200, 0 elsewhere; a program that does not fit is refused (R59, R240, R242; FONT
is a parameter, R7).
Choices it rests on: that reset during a run is power-up is the spec's decision D26, the values of DT, ST, KEY and
HALT its decision D14 (log 12), the font as a parameter its D20 (log 8), the refusal its D27 (log 25); the event is
the model's own (log 7); the canonical form of memory is the model's own (log 20). -/
def Obligations.BootGivesTheLaunchState : Prop :=
  ∀ (s s' : State) (font : FontImage) (program : List Byte), EventIsNext s (.boot font program) s' →
    (0xE00 < program.length → step s = .refused .programTooLarge) ∧
    (program.length ≤ 0xE00 → ∃ t, step s = .next t ∧
      (∀ a, t.mem.read a = if 0x200 ≤ a ∧ a < 0x200 + program.length then program.getD (a - 0x200) 0
        else font.toList.getD a 0) ∧
      t.mem.wf = true ∧ t.events = s'.events ∧ t.after = s'.after ∧ t.rndCount = s.rndCount ∧
      UnchangedBut [.mem, .events, .after, .rndCount] State.reset t)

/-- The reset state: every register, stack entry and display cell 0, `PC` 0x0200, no key, no fault record, and in memory the
default font, all 80 bytes as R57 prints them, and 0 elsewhere (R20, R29, R240, R242; DT, ST, KEY, HALT are the spec's
decision D14, log 12; the font bytes are general knowledge, the default of a parameter, log 8). The model's own fields
(the schedule, the random counter) are no state of the spec and are not spoken of. -/
def Obligations.ResetLeavesTheListedValues : Prop :=
  (∀ r, State.reset.getV r = 0) ∧ State.reset.i = 0 ∧ State.reset.pc.toNat = 0x200 ∧ State.reset.sp = 0 ∧
  (∀ k, State.reset.stack.get k = 0) ∧ State.reset.dt = 0 ∧ State.reset.st = 0 ∧ State.reset.key = none ∧
  State.reset.halt = none ∧ (∀ row col, State.reset.pixel row col = false) ∧
  (∀ a < 80, State.reset.mem.read a = printedFont.getD a 0) ∧
  (∀ a, 80 ≤ a → State.reset.mem.read a = 0)

/-! ## The whole machine -/

/-- Every step keeps the invariant: canonical memory, `PC` and the stack entries bounded, STACK[15] unused (R23, R26).
Choices it rests on: the bound on PC counts the target of JP V0 that the spec chooses (C5, log 17); that STACK[15]
stays unused rests on the call bound, the spec's decision D7 (log 11); the canonical form of memory is the model's own
(log 20). -/
def Obligations.StepKeepsTheInvariant : Prop :=
  ∀ s t : State, s.Inv → step s = .next t → t.Inv

/-- The reset state meets the invariant.
Choices it rests on: the canonical form of memory is the model's own (log 20). -/
def Obligations.ResetMeetsTheInvariant : Prop := State.reset.Inv

/-- Which instructions can change which piece of the state in their execute phase, for EVERY piece (R29, R30, R32, R33; for
the `V` registers R104 and each instruction's own rule).
Choices it rests on: that LD B, LD [I], LD Vx,[I] and DRW leave I as it was is the spec's decision D16 (log 13); that
LD Vx,K puts PC back is its decision D11 (log 28); that a fatal condition sets HALT is the spec's decision D8 (log 1);
the random counter and the schedule are the model's own (log 5, log 6, log 30). -/
def Obligations.EachPieceHasItsOwnWriters : Prop :=
  ∀ (i : Instr) (s t : State), exec i s = .next t →
    (¬ Same s t .v → ∃ x y nn n, i ∈ [.ldVxNn x nn, .addVxNn x nn, .ldVxVy x y, .or x y, .and x y, .xor x y,
      .addVxVy x y, .sub x y, .shr x, .subn x y, .shl x, .addIVx x, .rnd x nn, .drw x y n, .ldVxDt x, .ldVxK x,
      .ldVxMi x]) ∧
    (¬ Same s t .i → ∃ x nnn, i = .ldINnn nnn ∨ i = .addIVx x ∨ i = .ldFVx x) ∧
    (¬ Same s t .pc → ∃ x y nn nnn, i ∈ [.ret, .call0 nnn, .jp nnn, .call nnn, .jpV0 nnn, .seVxNn x nn, .sneVxNn x nn,
      .seVxVy x y, .sneVxVy x y, .skp x, .sknp x, .ldVxK x]) ∧
    (¬ Same s t .stack → ∃ nnn, i = .call0 nnn ∨ i = .call nnn) ∧
    (¬ Same s t .sp → ∃ nnn, i = .ret ∨ i = .call0 nnn ∨ i = .call nnn) ∧
    (¬ Same s t .dt → ∃ x, i = .ldDtVx x) ∧
    (¬ Same s t .st → ∃ x, i = .ldStVx x) ∧
    (¬ Same s t .key → ∃ x, i = .skp x ∨ i = .sknp x ∨ i = .ldVxK x) ∧
    (¬ Same s t .mem → ∃ x, i = .ldBVx x ∨ i = .ldMiVx x) ∧
    (¬ Same s t .fb → ∃ x y n, i = .cls ∨ i = .drw x y n) ∧
    (¬ Same s t .halt → ∃ x y n nnn, i ∈ [.ret, .call0 nnn, .call nnn, .drw x y n, .ldBVx x, .ldMiVx x, .ldVxMi x]) ∧
    (¬ Same s t .rndCount → ∃ x nn, i = .rnd x nn) ∧
    Same s t .events ∧ Same s t .after

/-- No instruction reads the sound timer: whatever ST holds, an instruction does the same to everything else, and ST itself
keeps its value but for LD ST, Vx, after which it does not depend on the old one (R27). -/
def Obligations.SoundTimerCannotBeRead : Prop :=
  ∀ (i : Instr) (s : State) (b : Byte),
    exec i (s.setST b) = if (∃ x, i = .ldStVx x) then exec i s else onNext (fun t => t.setST b) (exec i s)

/-- No instruction but DRW reads the display: whatever is on the screen, any other instruction does the same to everything
else, and the screen keeps its content but for CLS, after which it does not depend on the old one (R30, R180). -/
def Obligations.DisplayIsReadByDrawAlone : Prop :=
  ∀ (i : Instr) (s : State) (f : Framebuffer), (∀ x y n, i ≠ .drw x y n) →
    exec i (s.setFB f) = if i = .cls then exec i s else onNext (fun t => t.setFB f) (exec i s)

/-- Ticks may go on without end (R62, R107: "the only state that still moves is `DT`, `ST` (by `tick`)"): under a host that
raises `tick` for ever, `k` events are `k` ticks, on a halted machine too; and under one that raises `step` and `tick` in
turn for ever, a machine that loops on a jump to its own address has after `2 k` events seen `k` ticks and nothing else.
Choices it rests on: that ticks act on a halted machine is the spec's decision D8 (log 26); that every interleaving is
possible is its decision D2; the opcode numbers are general knowledge (log 9); the schedule is the model's own (log 6,
log 30). -/
def Obligations.TicksMayGoOnWithoutEnd : Prop :=
  ∀ (k : Nat) (s : State), s.events = [] →
    (s.after = .cycle [.tick] → Host.Core.run core k s = .next ((State.tick^[k]) s)) ∧
    (∀ nnn : Addr12, s.after = .cycle [.step, .tick] → s.halt = none → s.pc.toNat ≤ 0xFFE → s.pc.toNat = nnn.toNat →
      fetched s = encode (.jp nnn) → Host.Core.run core (2 * k) s = .next ((State.tick^[k]) s))
end

