-- ==== Sys2Proof/Laws/Decode.lean ====
section
/-! SUPPORT. The fields of an encoded word: each field of a word in numbers, each format in numbers, and the fields read
back from the formats. -/

namespace Sys2Proof

theorem toNat_append_add {n m : Nat} (a : BitVec n) (b : BitVec m) :
    (a ++ b).toNat = a.toNat * 2 ^ m + b.toNat := by
  rw [BitVec.toNat_append, ← Nat.shiftLeft_add_eq_or_of_lt b.isLt, Nat.shiftLeft_eq]

theorem nibble_val (op : Word) (lo : Nat) : (nibble op lo).val = op.toNat / 2 ^ lo % 16 := by
  simp [nibble, Nat.shiftRight_eq_div_pow]

theorem fieldN3_val (op : Word) : (fieldN3 op).val = op.toNat / 4096 % 16 := nibble_val op 12
theorem fieldX_val (op : Word) : (fieldX op).val = op.toNat / 256 % 16 := nibble_val op 8
theorem fieldY_val (op : Word) : (fieldY op).val = op.toNat / 16 % 16 := nibble_val op 4
theorem fieldN_val (op : Word) : (fieldN op).val = op.toNat % 16 := by
  have h := nibble_val op 0
  simpa [fieldN] using h
theorem fieldNN_toNat (op : Word) : (fieldNN op).toNat = op.toNat % 256 := by simp [fieldNN]
theorem fieldNNN_toNat (op : Word) : (fieldNNN op).toNat = op.toNat % 4096 := by simp [fieldNNN]

@[simp] theorem nib_toNat (k : Fin 16) : (nib k).toNat = k.val := by
  simp [nib]

theorem formatA_toNat (a : BitVec 4) (nnn : Addr12) : (formatA a nnn).toNat = a.toNat * 4096 + nnn.toNat := by
  exact toNat_append_add a nnn

theorem formatX_toNat (a : BitVec 4) (x : RegIdx) (nn : Byte) :
    (formatX a x nn).toNat = a.toNat * 4096 + x.val * 256 + nn.toNat := by
  have h := toNat_append_add (a ++ nib x) nn
  have h2 := toNat_append_add a (nib x)
  simp only [nib_toNat] at h h2
  have e : (formatX a x nn).toNat = ((a ++ nib x) ++ nn).toNat := rfl
  omega

theorem formatXY_toNat (a : BitVec 4) (x y : RegIdx) (n : Fin 16) :
    (formatXY a x y n).toNat = a.toNat * 4096 + x.val * 256 + y.val * 16 + n.val := by
  have h := toNat_append_add ((a ++ nib x) ++ nib y) (nib n)
  have h2 := toNat_append_add (a ++ nib x) (nib y)
  have h3 := toNat_append_add a (nib x)
  simp only [nib_toNat] at h h2 h3
  have e : (formatXY a x y n).toNat = (((a ++ nib x) ++ nib y) ++ nib n).toNat := rfl
  omega

section fields
variable (a : BitVec 4) (x y : RegIdx) (n : Fin 16) (nn : Byte) (nnn : Addr12)

@[simp] theorem fieldN3_formatA : fieldN3 (formatA a nnn) = a.toFin := by
  have h := formatA_toNat a nnn
  apply Fin.ext; rw [fieldN3_val, BitVec.val_toFin]; omega
@[simp] theorem fieldNNN_formatA : fieldNNN (formatA a nnn) = nnn := by
  have h := formatA_toNat a nnn
  apply BitVec.eq_of_toNat_eq; rw [fieldNNN_toNat]; omega
@[simp] theorem fieldN3_formatX : fieldN3 (formatX a x nn) = a.toFin := by
  have h := formatX_toNat a x nn
  apply Fin.ext; rw [fieldN3_val, BitVec.val_toFin]; omega
@[simp] theorem fieldX_formatX : fieldX (formatX a x nn) = x := by
  have h := formatX_toNat a x nn
  apply Fin.ext; rw [fieldX_val]; omega
@[simp] theorem fieldNN_formatX : fieldNN (formatX a x nn) = nn := by
  have h := formatX_toNat a x nn
  apply BitVec.eq_of_toNat_eq; rw [fieldNN_toNat]; omega
@[simp] theorem fieldN3_formatXY : fieldN3 (formatXY a x y n) = a.toFin := by
  have h := formatXY_toNat a x y n
  apply Fin.ext; rw [fieldN3_val, BitVec.val_toFin]; omega
@[simp] theorem fieldX_formatXY : fieldX (formatXY a x y n) = x := by
  have h := formatXY_toNat a x y n
  apply Fin.ext; rw [fieldX_val]; omega
@[simp] theorem fieldY_formatXY : fieldY (formatXY a x y n) = y := by
  have h := formatXY_toNat a x y n
  apply Fin.ext; rw [fieldY_val]; omega
@[simp] theorem fieldN_formatXY : fieldN (formatXY a x y n) = n := by
  have h := formatXY_toNat a x y n
  apply Fin.ext; rw [fieldN_val]; omega

end fields

@[simp] theorem highByte_toNat (w : Word) : (highByte w).toNat = w.toNat / 256 := by
  have h : (highByte w).toNat = w.toNat / 2 ^ 8 % 2 ^ 8 := by simp [highByte, Nat.shiftRight_eq_div_pow]
  omega

@[simp] theorem lowByte_toNat (w : Word) : (lowByte w).toNat = w.toNat % 256 := by simp [lowByte]

theorem wordOfBytes_toNat (hi lo : Byte) : (wordOfBytes hi lo).toNat = hi.toNat * 256 + lo.toNat :=
  toNat_append_add hi lo

/-- The two bytes of a word, joined big-endian, are the word (R51). -/
@[simp] theorem wordOfBytes_highByte_lowByte (w : Word) : wordOfBytes (highByte w) (lowByte w) = w := by
  apply BitVec.eq_of_toNat_eq
  rw [wordOfBytes_toNat, highByte_toNat, lowByte_toNat]; omega

@[simp] theorem highByte_wordOfBytes (hi lo : Byte) : highByte (wordOfBytes hi lo) = hi := by
  apply BitVec.eq_of_toNat_eq
  rw [highByte_toNat, wordOfBytes_toNat]; omega

@[simp] theorem lowByte_wordOfBytes (hi lo : Byte) : lowByte (wordOfBytes hi lo) = lo := by
  apply BitVec.eq_of_toNat_eq
  rw [lowByte_toNat, wordOfBytes_toNat]; omega

/-! A word put together again from its fields. -/

theorem formatXY_of_fields {op : Word} {n3 : BitVec 4} (h : fieldN3 op = n3.toFin) :
    formatXY n3 (fieldX op) (fieldY op) (fieldN op) = op := by
  have h1 := congrArg Fin.val h
  rw [fieldN3_val, BitVec.val_toFin] at h1
  apply BitVec.eq_of_toNat_eq
  rw [formatXY_toNat, fieldX_val, fieldY_val, fieldN_val]
  have := op.isLt
  omega

theorem formatX_of_fields {op : Word} {n3 : BitVec 4} (h : fieldN3 op = n3.toFin) :
    formatX n3 (fieldX op) (fieldNN op) = op := by
  have h1 := congrArg Fin.val h
  rw [fieldN3_val, BitVec.val_toFin] at h1
  apply BitVec.eq_of_toNat_eq
  rw [formatX_toNat, fieldX_val, fieldNN_toNat]
  have := op.isLt
  omega

theorem formatA_of_fields {op : Word} {n3 : BitVec 4} (h : fieldN3 op = n3.toFin) :
    formatA n3 (fieldNNN op) = op := by
  have h1 := congrArg Fin.val h
  rw [fieldN3_val, BitVec.val_toFin] at h1
  apply BitVec.eq_of_toNat_eq
  rw [formatA_toNat, fieldNNN_toNat]
  have := op.isLt
  omega

/-! The sixteen families of `decodeWord` (R79): a case for each high nibble. -/

section families
variable {op : Word}

theorem decodeWord_0 (h : fieldN3 op = 0x0) : decodeWord op =
    some (decodeFamily0 op) := by
  rw [decodeWord, h]; rfl
theorem decodeWord_1 (h : fieldN3 op = 0x1) : decodeWord op =
    some (.jp (fieldNNN op)) := by
  rw [decodeWord, h]; rfl
theorem decodeWord_2 (h : fieldN3 op = 0x2) : decodeWord op =
    some (.call (fieldNNN op)) := by
  rw [decodeWord, h]; rfl
theorem decodeWord_3 (h : fieldN3 op = 0x3) : decodeWord op =
    some (.seVxNn (fieldX op) (fieldNN op)) := by
  rw [decodeWord, h]; rfl
theorem decodeWord_4 (h : fieldN3 op = 0x4) : decodeWord op =
    some (.sneVxNn (fieldX op) (fieldNN op)) := by
  rw [decodeWord, h]; rfl
theorem decodeWord_5 (h : fieldN3 op = 0x5) : decodeWord op =
    if fieldN op = 0 then some (.seVxVy (fieldX op) (fieldY op)) else none := by
  rw [decodeWord, h]; rfl
theorem decodeWord_6 (h : fieldN3 op = 0x6) : decodeWord op =
    some (.ldVxNn (fieldX op) (fieldNN op)) := by
  rw [decodeWord, h]; rfl
theorem decodeWord_7 (h : fieldN3 op = 0x7) : decodeWord op =
    some (.addVxNn (fieldX op) (fieldNN op)) := by
  rw [decodeWord, h]; rfl
theorem decodeWord_8 (h : fieldN3 op = 0x8) : decodeWord op =
    decodeFamily8 op := by
  rw [decodeWord, h]; rfl
theorem decodeWord_9 (h : fieldN3 op = 0x9) : decodeWord op =
    if fieldN op = 0 then some (.sneVxVy (fieldX op) (fieldY op)) else none := by
  rw [decodeWord, h]; rfl
theorem decodeWord_A (h : fieldN3 op = 0xA) : decodeWord op =
    some (.ldINnn (fieldNNN op)) := by
  rw [decodeWord, h]; rfl
theorem decodeWord_B (h : fieldN3 op = 0xB) : decodeWord op =
    some (.jpV0 (fieldNNN op)) := by
  rw [decodeWord, h]; rfl
theorem decodeWord_C (h : fieldN3 op = 0xC) : decodeWord op =
    some (.rnd (fieldX op) (fieldNN op)) := by
  rw [decodeWord, h]; rfl
theorem decodeWord_D (h : fieldN3 op = 0xD) : decodeWord op =
    some (.drw (fieldX op) (fieldY op) (fieldN op)) := by
  rw [decodeWord, h]; rfl
theorem decodeWord_E (h : fieldN3 op = 0xE) : decodeWord op =
    decodeFamilyE op := by
  rw [decodeWord, h]; rfl
theorem decodeWord_F (h : fieldN3 op = 0xF) : decodeWord op =
    decodeFamilyF op := by
  rw [decodeWord, h]; rfl

/-- The high nibble is one of sixteen. -/
theorem fieldN3_cases (op : Word) :
    fieldN3 op = 0x0 ∨ fieldN3 op = 0x1 ∨ fieldN3 op = 0x2 ∨ fieldN3 op = 0x3 ∨ fieldN3 op = 0x4 ∨ fieldN3 op = 0x5 ∨
    fieldN3 op = 0x6 ∨ fieldN3 op = 0x7 ∨ fieldN3 op = 0x8 ∨ fieldN3 op = 0x9 ∨ fieldN3 op = 0xA ∨ fieldN3 op = 0xB ∨
    fieldN3 op = 0xC ∨ fieldN3 op = 0xD ∨ fieldN3 op = 0xE ∨ fieldN3 op = 0xF := by
  generalize fieldN3 op = k
  revert k
  decide

end families

/-! The three masks of the opcode table (R92), beside the full one, in numbers. -/

theorem and_F000_toNat (w : Word) : (w &&& 0xF000).toNat = w.toNat / 4096 * 4096 := by
  have h : w &&& (0xF000 : Word) = (w >>> 12) <<< 12 := by
    ext k hk
    interval_cases k <;> simp
  rw [h, BitVec.toNat_shiftLeft, BitVec.toNat_ushiftRight, Nat.shiftLeft_eq, Nat.shiftRight_eq_div_pow]
  omega

theorem and_low_toNat (w : Word) (n : Nat) (hn : n < 16) :
    (w &&& BitVec.ofNat 16 (2 ^ n - 1)).toNat = w.toNat % 2 ^ n := by
  have h : 2 ^ n < 2 ^ 16 := Nat.pow_lt_pow_right (by omega) hn
  rw [BitVec.toNat_and, BitVec.toNat_ofNat, Nat.mod_eq_of_lt (by omega), Nat.and_two_pow_sub_one_eq_mod]

theorem and_F00F_toNat (w : Word) : (w &&& 0xF00F).toNat = w.toNat / 4096 * 4096 + w.toNat % 16 := by
  have h : w &&& 0xF00F = (w &&& 0xF000) + (w &&& 0x000F) := by
    rw [BitVec.add_eq_or_of_and_eq_zero] <;> (ext k hk; interval_cases k <;> simp)
  have h1 := and_F000_toNat w
  have h2 : (w &&& 0x000F).toNat = w.toNat % 16 := and_low_toNat w 4 (by omega)
  rw [h, BitVec.toNat_add, h1, h2]
  omega

theorem and_F0FF_toNat (w : Word) : (w &&& 0xF0FF).toNat = w.toNat / 4096 * 4096 + w.toNat % 256 := by
  have h : w &&& 0xF0FF = (w &&& 0xF000) + (w &&& 0x00FF) := by
    rw [BitVec.add_eq_or_of_and_eq_zero] <;> (ext k hk; interval_cases k <;> simp)
  have h1 := and_F000_toNat w
  have h2 : (w &&& 0x00FF).toNat = w.toNat % 256 := and_low_toNat w 8 (by omega)
  rw [h, BitVec.toNat_add, h1, h2]
  omega

end Sys2Proof
end

