-- ==== Sys2Proof/Laws/Memory.lean ====
section
/-! SUPPORT. The laws of memory: read after write, the canonical form kept, and what the loader's copy leaves. -/

namespace Sys2Proof.Machine.Memory

@[simp] theorem read_nil (a : Nat) : read [] a = emptyByte := rfl

@[simp] theorem wf_nil : wf [] = true := rfl

theorem wfFrom_cons {lo a : Nat} {v : Byte} {rest : Memory} :
    wfFrom lo ((a, v) :: rest) = true ↔
      lo ≤ a ∧ a < Config.memSize ∧ v ≠ emptyByte ∧ wfFrom (a + 1) rest = true := by
  simp [wfFrom, and_assoc]

theorem wfFrom_mono {lo lo' : Nat} (h : lo' ≤ lo) : ∀ {m : Memory}, wfFrom lo m = true → wfFrom lo' m = true
  | [], _ => rfl
  | (a, v) :: rest, hm => by
    rw [wfFrom_cons] at hm ⊢
    exact ⟨h.trans hm.1, hm.2⟩

/-- Below its first address a canonical memory reads as a memory that lists nothing. -/
theorem read_of_lt {lo a : Nat} (h : a < lo) : ∀ {m : Memory}, wfFrom lo m = true → read m a = emptyByte
  | [], _ => rfl
  | (b, w) :: rest, hm => by
    rw [wfFrom_cons] at hm
    have hab : a < b := by omega
    simp [read, hab]

theorem wfFrom_write {lo a : Nat} {v : Byte} (hlo : lo ≤ a) (ha : a < Config.memSize) :
    ∀ {m : Memory}, wfFrom lo m = true → wfFrom lo (write m a v) = true
  | [], _ => by
    unfold write
    split
    · rfl
    · rw [wfFrom_cons]; exact ⟨hlo, ha, ‹_›, rfl⟩
  | (b, w) :: rest, hm => by
    obtain ⟨hb, hbm, hw, hr⟩ := wfFrom_cons.mp hm
    unfold write
    split
    · split
      · exact hm
      · exact wfFrom_cons.mpr ⟨hlo, ha, ‹_›, wfFrom_cons.mpr ⟨by omega, hbm, hw, hr⟩⟩
    · split
      · subst a
        split
        · exact wfFrom_mono (by omega) hr
        · exact wfFrom_cons.mpr ⟨hb, hbm, ‹_›, hr⟩
      · exact wfFrom_cons.mpr ⟨hb, hbm, hw, wfFrom_write (by omega) ha hr⟩

/-- A write inside `MEM` keeps the canonical form. -/
theorem wf_write {m : Memory} {a : Nat} {v : Byte} (ha : a < Config.memSize) (h : wf m = true) :
    wf (write m a v) = true :=
  wfFrom_write (Nat.zero_le a) ha h

theorem read_write_from {lo a c : Nat} {v : Byte} :
    ∀ {m : Memory}, wfFrom lo m = true → read (write m a v) c = if c = a then v else read m c
  | [], _ => by
    by_cases hv : v = emptyByte
    · by_cases hc : c = a <;> simp [write, hv, hc]
    · rcases lt_trichotomy c a with hc | hc | hc
      · simp [write, hv, read, hc, hc.ne]
      · simp [write, hv, read, hc]
      · simp [write, hv, read, hc.ne', Nat.lt_asymm hc]
  | (b, w) :: rest, hm => by
    obtain ⟨hb, hbm, hw, hr⟩ := wfFrom_cons.mp hm
    have ih := read_write_from (a := a) (c := c) (v := v) hr
    by_cases hab : a < b
    · by_cases hv : v = emptyByte
      · by_cases hc : c = a
        · subst c; simp [write, hab, hv, read]
        · simp [write, hab, hv, hc]
      · rcases lt_trichotomy c a with hc | hc | hc
        · have : c < b := by omega
          simp [write, hab, hv, read, hc, hc.ne, this]
        · simp [write, hab, hv, read, hc]
        · simp [write, hab, hv, read, hc.ne', Nat.lt_asymm hc]
    · by_cases hEq : a = b
      · subst a
        by_cases hv : v = emptyByte
        · rcases lt_trichotomy c b with hc | hc | hc
          · simp [write, hv, read, hc, hc.ne, read_of_lt (lo := b + 1) (by omega : c < b + 1) hr]
          · subst c
            simp [write, hv, read_of_lt (Nat.lt_succ_self b) hr]
          · simp [write, hv, read, hc.ne', Nat.lt_asymm hc]
        · rcases lt_trichotomy c b with hc | hc | hc
          · simp [write, hv, read, hc, hc.ne]
          · simp [write, hv, read, hc]
          · simp [write, hv, read, hc.ne', Nat.lt_asymm hc]
      · have hba : b < a := by omega
        rcases lt_trichotomy c b with hc | hc | hc
        · have : c ≠ a := by omega
          simp [write, hab, hEq, read, hc, this]
        · have : c ≠ a := by omega
          simp [write, hab, hEq, read, hc, hba.ne]
        · simp [write, hab, hEq, read, hc.ne', Nat.lt_asymm hc, ih]

/-- Reading a byte after writing one, in a canonical memory. -/
theorem read_write {m : Memory} (h : wf m = true) (a c : Nat) (v : Byte) :
    read (write m a v) c = if c = a then v else read m c :=
  read_write_from h

/-- The loader's copy keeps the canonical form. -/
theorem wf_writeBytes : ∀ {bytes : List Byte} {m : Memory} {a : Nat},
    a + bytes.length ≤ Config.memSize → wf m = true → wf (writeBytes m a bytes) = true
  | [], _, _, _, h => h
  | b :: bs, m, a, hlen, h => by
    simp only [List.length_cons] at hlen
    have ha : a < Config.memSize := by omega
    exact wf_writeBytes (m := write m a b) (by omega) (wf_write ha h)

/-- What the loader's copy leaves at each address. -/
theorem read_writeBytes : ∀ {bytes : List Byte} {m : Memory} {a : Nat} (c : Nat),
    a + bytes.length ≤ Config.memSize → wf m = true →
    read (writeBytes m a bytes) c =
      if a ≤ c ∧ c < a + bytes.length then bytes.getD (c - a) 0 else read m c
  | [], m, a, c, _, _ => by
    simp [writeBytes]
  | b :: bs, m, a, c, hlen, h => by
    simp only [List.length_cons] at hlen ⊢
    have ih := read_writeBytes (bytes := bs) (m := write m a b) (a := a + 1) c (by omega) (wf_write (by omega) h)
    rw [writeBytes, ih, read_write h]
    by_cases hc : c = a
    · subst c; simp
    · by_cases hin : a + 1 ≤ c ∧ c < a + 1 + bs.length
      · have h2 : a ≤ c ∧ c < a + (bs.length + 1) := by omega
        have h3 : c - a = (c - (a + 1)) + 1 := by omega
        rw [if_pos hin, if_pos h2, h3, List.getD_cons_succ]
      · have h2 : ¬ (a ≤ c ∧ c < a + (bs.length + 1)) := by omega
        rw [if_neg hin, if_neg h2, if_neg hc]

/-- Placing a word keeps the canonical form (reset's memory has it, `wf_resetWith`). -/
theorem wf_write_write {m : Memory} {a b : Nat} {v w : Byte} (ha : a < Config.memSize) (hb : b < Config.memSize)
    (h : wf m = true) : wf (write (write m a v) b w) = true :=
  wf_write hb (wf_write ha h)

/-- The cells of given bytes inside `MEM` are canonical. -/
theorem wfFrom_cellsFrom : ∀ {bytes : List Byte} {a : Nat}, a + bytes.length ≤ Config.memSize →
    wfFrom a (cellsFrom a bytes) = true
  | [], _, _ => rfl
  | b :: bs, a, h => by
    rw [List.length_cons] at h
    have ih : wfFrom (a + 1) (cellsFrom (a + 1) bs) = true := wfFrom_cellsFrom (by omega)
    unfold cellsFrom
    split
    · exact wfFrom_mono (Nat.le_succ a) ih
    · exact wfFrom_cons.mpr ⟨le_rfl, by omega, ‹_›, ih⟩

/-- What the cells of given bytes read as: the bytes, and nothing elsewhere. -/
theorem read_cellsFrom : ∀ {bytes : List Byte} {a : Nat} (c : Nat), a + bytes.length ≤ Config.memSize →
    read (cellsFrom a bytes) c = if a ≤ c then bytes.getD (c - a) 0 else 0
  | [], a, c, _ => by simp [cellsFrom, emptyByte]
  | b :: bs, a, c, h => by
    rw [List.length_cons] at h
    have hw : wfFrom (a + 1) (cellsFrom (a + 1) bs) = true := wfFrom_cellsFrom (by omega)
    have ih := read_cellsFrom (bytes := bs) (a := a + 1) c (by omega)
    rcases lt_trichotomy c a with hc | rfl | hc
    · rw [if_neg (by omega)]
      exact read_of_lt (lo := a) hc (wfFrom_cellsFrom (bytes := b :: bs) (by rw [List.length_cons]; exact h))
    · rw [if_pos le_rfl, Nat.sub_self, List.getD_cons_zero]
      unfold cellsFrom
      split
      · rw [read_of_lt (Nat.lt_succ_self c) hw]; exact Eq.symm ‹b = 0›
      · simp [read]
    · rw [if_pos (show a + 1 ≤ c by omega)] at ih
      rw [if_pos hc.le, show c - a = (c - (a + 1)) + 1 by omega, List.getD_cons_succ, ← ih, cellsFrom]
      split
      · rfl
      · simp [read, hc.ne', Nat.lt_asymm hc]

/-- The font leaves memory canonical. -/
theorem wf_resetWith (font : FontImage) : wf (State.resetWith font).mem = true :=
  wfFrom_mono (Nat.zero_le _) (wfFrom_cellsFrom (by rw [Vector.length_toList]; decide))

/-- Memory after reset with a font: the font at 0x000 to 0x04F, 0 elsewhere (R29). -/
theorem read_resetWith (font : FontImage) (a : Nat) : read (State.resetWith font).mem a = font.toList.getD a 0 := by
  exact (read_cellsFrom (bytes := font.toList) (a := Config.fontBase) a (by rw [Vector.length_toList]; decide)).trans
    (if_pos (Nat.zero_le a))

end Sys2Proof.Machine.Memory
end

