-- ==== Sys2Proof/Laws/State.lean ====
section
/-! SUPPORT. One lemma per field per update of the state, each true by rfl, and the one lemma that says what reading a
register after writing one gives. -/

namespace Sys2Proof.Machine.State

variable (s : State)

@[simp] theorem setV_v (r : RegIdx) (b : Byte) : (s.setV r b).v = s.v.set r.val b r.isLt := rfl
@[simp] theorem setV_i (r : RegIdx) (b : Byte) : (s.setV r b).i = s.i := rfl
@[simp] theorem setV_pc (r : RegIdx) (b : Byte) : (s.setV r b).pc = s.pc := rfl
@[simp] theorem setV_sp (r : RegIdx) (b : Byte) : (s.setV r b).sp = s.sp := rfl
@[simp] theorem setV_stack (r : RegIdx) (b : Byte) : (s.setV r b).stack = s.stack := rfl
@[simp] theorem setV_dt (r : RegIdx) (b : Byte) : (s.setV r b).dt = s.dt := rfl
@[simp] theorem setV_st (r : RegIdx) (b : Byte) : (s.setV r b).st = s.st := rfl
@[simp] theorem setV_key (r : RegIdx) (b : Byte) : (s.setV r b).key = s.key := rfl
@[simp] theorem setV_mem (r : RegIdx) (b : Byte) : (s.setV r b).mem = s.mem := rfl
@[simp] theorem setV_fb (r : RegIdx) (b : Byte) : (s.setV r b).fb = s.fb := rfl
@[simp] theorem setV_halt (r : RegIdx) (b : Byte) : (s.setV r b).halt = s.halt := rfl
@[simp] theorem setV_events (r : RegIdx) (b : Byte) : (s.setV r b).events = s.events := rfl
@[simp] theorem setV_after (r : RegIdx) (b : Byte) : (s.setV r b).after = s.after := rfl
@[simp] theorem setV_rndCount (r : RegIdx) (b : Byte) : (s.setV r b).rndCount = s.rndCount := rfl

@[simp] theorem setVF_v (f : Byte) : (s.setVF f).v = s.v.set 15 f (by decide) := rfl
@[simp] theorem setVF_i (f : Byte) : (s.setVF f).i = s.i := rfl
@[simp] theorem setVF_pc (f : Byte) : (s.setVF f).pc = s.pc := rfl
@[simp] theorem setVF_sp (f : Byte) : (s.setVF f).sp = s.sp := rfl
@[simp] theorem setVF_stack (f : Byte) : (s.setVF f).stack = s.stack := rfl
@[simp] theorem setVF_dt (f : Byte) : (s.setVF f).dt = s.dt := rfl
@[simp] theorem setVF_st (f : Byte) : (s.setVF f).st = s.st := rfl
@[simp] theorem setVF_key (f : Byte) : (s.setVF f).key = s.key := rfl
@[simp] theorem setVF_mem (f : Byte) : (s.setVF f).mem = s.mem := rfl
@[simp] theorem setVF_fb (f : Byte) : (s.setVF f).fb = s.fb := rfl
@[simp] theorem setVF_halt (f : Byte) : (s.setVF f).halt = s.halt := rfl
@[simp] theorem setVF_events (f : Byte) : (s.setVF f).events = s.events := rfl
@[simp] theorem setVF_after (f : Byte) : (s.setVF f).after = s.after := rfl
@[simp] theorem setVF_rndCount (f : Byte) : (s.setVF f).rndCount = s.rndCount := rfl

@[simp] theorem setI_v (w : Word) : (s.setI w).v = s.v := rfl
@[simp] theorem setI_i (w : Word) : (s.setI w).i = w := rfl
@[simp] theorem setI_pc (w : Word) : (s.setI w).pc = s.pc := rfl
@[simp] theorem setI_sp (w : Word) : (s.setI w).sp = s.sp := rfl
@[simp] theorem setI_stack (w : Word) : (s.setI w).stack = s.stack := rfl
@[simp] theorem setI_dt (w : Word) : (s.setI w).dt = s.dt := rfl
@[simp] theorem setI_st (w : Word) : (s.setI w).st = s.st := rfl
@[simp] theorem setI_key (w : Word) : (s.setI w).key = s.key := rfl
@[simp] theorem setI_mem (w : Word) : (s.setI w).mem = s.mem := rfl
@[simp] theorem setI_fb (w : Word) : (s.setI w).fb = s.fb := rfl
@[simp] theorem setI_halt (w : Word) : (s.setI w).halt = s.halt := rfl
@[simp] theorem setI_events (w : Word) : (s.setI w).events = s.events := rfl
@[simp] theorem setI_after (w : Word) : (s.setI w).after = s.after := rfl
@[simp] theorem setI_rndCount (w : Word) : (s.setI w).rndCount = s.rndCount := rfl

@[simp] theorem setPC_v (w : Word) : (s.setPC w).v = s.v := rfl
@[simp] theorem setPC_i (w : Word) : (s.setPC w).i = s.i := rfl
@[simp] theorem setPC_pc (w : Word) : (s.setPC w).pc = w := rfl
@[simp] theorem setPC_sp (w : Word) : (s.setPC w).sp = s.sp := rfl
@[simp] theorem setPC_stack (w : Word) : (s.setPC w).stack = s.stack := rfl
@[simp] theorem setPC_dt (w : Word) : (s.setPC w).dt = s.dt := rfl
@[simp] theorem setPC_st (w : Word) : (s.setPC w).st = s.st := rfl
@[simp] theorem setPC_key (w : Word) : (s.setPC w).key = s.key := rfl
@[simp] theorem setPC_mem (w : Word) : (s.setPC w).mem = s.mem := rfl
@[simp] theorem setPC_fb (w : Word) : (s.setPC w).fb = s.fb := rfl
@[simp] theorem setPC_halt (w : Word) : (s.setPC w).halt = s.halt := rfl
@[simp] theorem setPC_events (w : Word) : (s.setPC w).events = s.events := rfl
@[simp] theorem setPC_after (w : Word) : (s.setPC w).after = s.after := rfl
@[simp] theorem setPC_rndCount (w : Word) : (s.setPC w).rndCount = s.rndCount := rfl

@[simp] theorem setDT_v (b : Byte) : (s.setDT b).v = s.v := rfl
@[simp] theorem setDT_i (b : Byte) : (s.setDT b).i = s.i := rfl
@[simp] theorem setDT_pc (b : Byte) : (s.setDT b).pc = s.pc := rfl
@[simp] theorem setDT_sp (b : Byte) : (s.setDT b).sp = s.sp := rfl
@[simp] theorem setDT_stack (b : Byte) : (s.setDT b).stack = s.stack := rfl
@[simp] theorem setDT_dt (b : Byte) : (s.setDT b).dt = b := rfl
@[simp] theorem setDT_st (b : Byte) : (s.setDT b).st = s.st := rfl
@[simp] theorem setDT_key (b : Byte) : (s.setDT b).key = s.key := rfl
@[simp] theorem setDT_mem (b : Byte) : (s.setDT b).mem = s.mem := rfl
@[simp] theorem setDT_fb (b : Byte) : (s.setDT b).fb = s.fb := rfl
@[simp] theorem setDT_halt (b : Byte) : (s.setDT b).halt = s.halt := rfl
@[simp] theorem setDT_events (b : Byte) : (s.setDT b).events = s.events := rfl
@[simp] theorem setDT_after (b : Byte) : (s.setDT b).after = s.after := rfl
@[simp] theorem setDT_rndCount (b : Byte) : (s.setDT b).rndCount = s.rndCount := rfl

@[simp] theorem setST_v (b : Byte) : (s.setST b).v = s.v := rfl
@[simp] theorem setST_i (b : Byte) : (s.setST b).i = s.i := rfl
@[simp] theorem setST_pc (b : Byte) : (s.setST b).pc = s.pc := rfl
@[simp] theorem setST_sp (b : Byte) : (s.setST b).sp = s.sp := rfl
@[simp] theorem setST_stack (b : Byte) : (s.setST b).stack = s.stack := rfl
@[simp] theorem setST_dt (b : Byte) : (s.setST b).dt = s.dt := rfl
@[simp] theorem setST_st (b : Byte) : (s.setST b).st = b := rfl
@[simp] theorem setST_key (b : Byte) : (s.setST b).key = s.key := rfl
@[simp] theorem setST_mem (b : Byte) : (s.setST b).mem = s.mem := rfl
@[simp] theorem setST_fb (b : Byte) : (s.setST b).fb = s.fb := rfl
@[simp] theorem setST_halt (b : Byte) : (s.setST b).halt = s.halt := rfl
@[simp] theorem setST_events (b : Byte) : (s.setST b).events = s.events := rfl
@[simp] theorem setST_after (b : Byte) : (s.setST b).after = s.after := rfl
@[simp] theorem setST_rndCount (b : Byte) : (s.setST b).rndCount = s.rndCount := rfl

@[simp] theorem setKey_v (k : Option KeyNumber) : (s.setKey k).v = s.v := rfl
@[simp] theorem setKey_i (k : Option KeyNumber) : (s.setKey k).i = s.i := rfl
@[simp] theorem setKey_pc (k : Option KeyNumber) : (s.setKey k).pc = s.pc := rfl
@[simp] theorem setKey_sp (k : Option KeyNumber) : (s.setKey k).sp = s.sp := rfl
@[simp] theorem setKey_stack (k : Option KeyNumber) : (s.setKey k).stack = s.stack := rfl
@[simp] theorem setKey_dt (k : Option KeyNumber) : (s.setKey k).dt = s.dt := rfl
@[simp] theorem setKey_st (k : Option KeyNumber) : (s.setKey k).st = s.st := rfl
@[simp] theorem setKey_key (k : Option KeyNumber) : (s.setKey k).key = k := rfl
@[simp] theorem setKey_mem (k : Option KeyNumber) : (s.setKey k).mem = s.mem := rfl
@[simp] theorem setKey_fb (k : Option KeyNumber) : (s.setKey k).fb = s.fb := rfl
@[simp] theorem setKey_halt (k : Option KeyNumber) : (s.setKey k).halt = s.halt := rfl
@[simp] theorem setKey_events (k : Option KeyNumber) : (s.setKey k).events = s.events := rfl
@[simp] theorem setKey_after (k : Option KeyNumber) : (s.setKey k).after = s.after := rfl
@[simp] theorem setKey_rndCount (k : Option KeyNumber) : (s.setKey k).rndCount = s.rndCount := rfl

@[simp] theorem setFB_v (f : Framebuffer) : (s.setFB f).v = s.v := rfl
@[simp] theorem setFB_i (f : Framebuffer) : (s.setFB f).i = s.i := rfl
@[simp] theorem setFB_pc (f : Framebuffer) : (s.setFB f).pc = s.pc := rfl
@[simp] theorem setFB_sp (f : Framebuffer) : (s.setFB f).sp = s.sp := rfl
@[simp] theorem setFB_stack (f : Framebuffer) : (s.setFB f).stack = s.stack := rfl
@[simp] theorem setFB_dt (f : Framebuffer) : (s.setFB f).dt = s.dt := rfl
@[simp] theorem setFB_st (f : Framebuffer) : (s.setFB f).st = s.st := rfl
@[simp] theorem setFB_key (f : Framebuffer) : (s.setFB f).key = s.key := rfl
@[simp] theorem setFB_mem (f : Framebuffer) : (s.setFB f).mem = s.mem := rfl
@[simp] theorem setFB_fb (f : Framebuffer) : (s.setFB f).fb = f := rfl
@[simp] theorem setFB_halt (f : Framebuffer) : (s.setFB f).halt = s.halt := rfl
@[simp] theorem setFB_events (f : Framebuffer) : (s.setFB f).events = s.events := rfl
@[simp] theorem setFB_after (f : Framebuffer) : (s.setFB f).after = s.after := rfl
@[simp] theorem setFB_rndCount (f : Framebuffer) : (s.setFB f).rndCount = s.rndCount := rfl

@[simp] theorem drawRandom_v : s.drawRandom.v = s.v := rfl
@[simp] theorem drawRandom_i : s.drawRandom.i = s.i := rfl
@[simp] theorem drawRandom_pc : s.drawRandom.pc = s.pc := rfl
@[simp] theorem drawRandom_sp : s.drawRandom.sp = s.sp := rfl
@[simp] theorem drawRandom_stack : s.drawRandom.stack = s.stack := rfl
@[simp] theorem drawRandom_dt : s.drawRandom.dt = s.dt := rfl
@[simp] theorem drawRandom_st : s.drawRandom.st = s.st := rfl
@[simp] theorem drawRandom_key : s.drawRandom.key = s.key := rfl
@[simp] theorem drawRandom_mem : s.drawRandom.mem = s.mem := rfl
@[simp] theorem drawRandom_fb : s.drawRandom.fb = s.fb := rfl
@[simp] theorem drawRandom_halt : s.drawRandom.halt = s.halt := rfl
@[simp] theorem drawRandom_events : s.drawRandom.events = s.events := rfl
@[simp] theorem drawRandom_after : s.drawRandom.after = s.after := rfl
@[simp] theorem drawRandom_rndCount : s.drawRandom.rndCount = s.rndCount + 1 := rfl

@[simp] theorem raise_v (c : FatalCause) (o : Option Word) (a : Word) : (s.raise c o a).v = s.v := rfl
@[simp] theorem raise_i (c : FatalCause) (o : Option Word) (a : Word) : (s.raise c o a).i = s.i := rfl
@[simp] theorem raise_pc (c : FatalCause) (o : Option Word) (a : Word) : (s.raise c o a).pc = s.pc := rfl
@[simp] theorem raise_sp (c : FatalCause) (o : Option Word) (a : Word) : (s.raise c o a).sp = s.sp := rfl
@[simp] theorem raise_stack (c : FatalCause) (o : Option Word) (a : Word) : (s.raise c o a).stack = s.stack := rfl
@[simp] theorem raise_dt (c : FatalCause) (o : Option Word) (a : Word) : (s.raise c o a).dt = s.dt := rfl
@[simp] theorem raise_st (c : FatalCause) (o : Option Word) (a : Word) : (s.raise c o a).st = s.st := rfl
@[simp] theorem raise_key (c : FatalCause) (o : Option Word) (a : Word) : (s.raise c o a).key = s.key := rfl
@[simp] theorem raise_mem (c : FatalCause) (o : Option Word) (a : Word) : (s.raise c o a).mem = s.mem := rfl
@[simp] theorem raise_fb (c : FatalCause) (o : Option Word) (a : Word) : (s.raise c o a).fb = s.fb := rfl
@[simp] theorem raise_halt (c : FatalCause) (o : Option Word) (a : Word) : (s.raise c o a).halt = some ⟨c, o, a⟩ := rfl
@[simp] theorem raise_events (c : FatalCause) (o : Option Word) (a : Word) : (s.raise c o a).events = s.events := rfl
@[simp] theorem raise_after (c : FatalCause) (o : Option Word) (a : Word) : (s.raise c o a).after = s.after := rfl
@[simp] theorem raise_rndCount (c : FatalCause) (o : Option Word) (a : Word) : (s.raise c o a).rndCount = s.rndCount := rfl

@[simp] theorem pushed_v (w : Word) : (s.pushed w).v = s.v := rfl
@[simp] theorem pushed_i (w : Word) : (s.pushed w).i = s.i := rfl
@[simp] theorem pushed_pc (w : Word) : (s.pushed w).pc = s.pc := rfl
@[simp] theorem pushed_sp (w : Word) : (s.pushed w).sp = s.sp + 1 := rfl
@[simp] theorem pushed_stack (w : Word) : (s.pushed w).stack = s.stack.set s.sp.val w s.sp.isLt := rfl
@[simp] theorem pushed_dt (w : Word) : (s.pushed w).dt = s.dt := rfl
@[simp] theorem pushed_st (w : Word) : (s.pushed w).st = s.st := rfl
@[simp] theorem pushed_key (w : Word) : (s.pushed w).key = s.key := rfl
@[simp] theorem pushed_mem (w : Word) : (s.pushed w).mem = s.mem := rfl
@[simp] theorem pushed_fb (w : Word) : (s.pushed w).fb = s.fb := rfl
@[simp] theorem pushed_halt (w : Word) : (s.pushed w).halt = s.halt := rfl
@[simp] theorem pushed_events (w : Word) : (s.pushed w).events = s.events := rfl
@[simp] theorem pushed_after (w : Word) : (s.pushed w).after = s.after := rfl
@[simp] theorem pushed_rndCount (w : Word) : (s.pushed w).rndCount = s.rndCount := rfl

@[simp] theorem tick_v : s.tick.v = s.v := rfl
@[simp] theorem tick_i : s.tick.i = s.i := rfl
@[simp] theorem tick_pc : s.tick.pc = s.pc := rfl
@[simp] theorem tick_sp : s.tick.sp = s.sp := rfl
@[simp] theorem tick_stack : s.tick.stack = s.stack := rfl
@[simp] theorem tick_dt : s.tick.dt = countDown s.dt := rfl
@[simp] theorem tick_st : s.tick.st = countDown s.st := rfl
@[simp] theorem tick_key : s.tick.key = s.key := rfl
@[simp] theorem tick_mem : s.tick.mem = s.mem := rfl
@[simp] theorem tick_fb : s.tick.fb = s.fb := rfl
@[simp] theorem tick_halt : s.tick.halt = s.halt := rfl
@[simp] theorem tick_events : s.tick.events = s.events := rfl
@[simp] theorem tick_after : s.tick.after = s.after := rfl
@[simp] theorem tick_rndCount : s.tick.rndCount = s.rndCount := rfl

/-- Reading a register after writing one. -/
@[simp] theorem getV_setV (r q : RegIdx) (b : Byte) : (s.setV r b).getV q = if q = r then b else s.getV q := by
  simp only [getV, setV, Vector.get_eq_getElem, Vector.getElem_set, Fin.ext_iff, eq_comm (a := q.val)]

/-- Reading a register after writing VF. -/
@[simp] theorem getV_setVF (q : RegIdx) (f : Byte) : (s.setVF f).getV q = if q = 15 then f else s.getV q :=
  getV_setV s 15 q f

@[simp] theorem getV_setI (w : Word) (q : RegIdx) : (s.setI w).getV q = s.getV q := rfl
@[simp] theorem getV_setPC (w : Word) (q : RegIdx) : (s.setPC w).getV q = s.getV q := rfl
@[simp] theorem getV_setDT (b : Byte) (q : RegIdx) : (s.setDT b).getV q = s.getV q := rfl
@[simp] theorem getV_setST (b : Byte) (q : RegIdx) : (s.setST b).getV q = s.getV q := rfl
@[simp] theorem getV_setKey (k : Option KeyNumber) (q : RegIdx) : (s.setKey k).getV q = s.getV q := rfl
@[simp] theorem getV_setFB (f : Framebuffer) (q : RegIdx) : (s.setFB f).getV q = s.getV q := rfl
@[simp] theorem getV_drawRandom (q : RegIdx) : s.drawRandom.getV q = s.getV q := rfl
@[simp] theorem getV_raise (c : FatalCause) (o : Option Word) (a : Word) (q : RegIdx) : (s.raise c o a).getV q = s.getV q := rfl
@[simp] theorem getV_pushed (w : Word) (q : RegIdx) : (s.pushed w).getV q = s.getV q := rfl
@[simp] theorem getV_tick (q : RegIdx) : s.tick.getV q = s.getV q := rfl
@[simp] theorem getV_withMem (m : Memory) (q : RegIdx) : getV { s with mem := m } q = s.getV q := rfl
@[simp] theorem getV_withEvents (es : List Event) (q : RegIdx) : getV { s with events := es } q = s.getV q := rfl
@[simp] theorem getV_withAfter (o : Onward) (q : RegIdx) : getV { s with after := o } q = s.getV q := rfl

end Sys2Proof.Machine.State
end

