-- ==== Sys2Proof/Laws/Ops.lean ====
section
/-! SUPPORT. One lemma per shared operation, saying everything it can do; callers cite it instead of unfolding it. -/

namespace Sys2Proof.Machine

/-! ## Addresses -/

theorem inMem_iff (a : Word) : inMem a = true ↔ a.toNat ≤ 0xFFF := by
  unfold inMem Config.memSize
  rw [decide_eq_true_iff]; omega

@[simp] theorem ea_zero (a : Word) : ea a 0 = a := by simp [ea]

theorem ea_ea (a : Word) (j k : Nat) : ea (ea a j) k = ea a (j + k) := by
  apply BitVec.eq_of_toNat_eq
  simp [ea]
  omega

/-- An effective address that has not left `MEM` did not wrap (R56). -/
theorem ea_toNat {a : Word} {k : Nat} (h : a.toNat + k < 0x10000) : (ea a k).toNat = a.toNat + k := by
  simp [ea]; omega

/-! ## One byte access (R14) -/

theorem memRead_ok {s : State} {a : Word} (h : a.toNat ≤ 0xFFF) : memRead s a = .ok (s.mem.read a.toNat) := by
  simp [memRead, (inMem_iff a).mpr h]

theorem memRead_error {s : State} {a : Word} (h : 0xFFF < a.toNat) : memRead s a = .error a := by
  have : inMem a = false := by rw [← Bool.not_eq_true, inMem_iff]; omega
  simp [memRead, this]

theorem memWrite_ok {s : State} {a : Word} {b : Byte} (h : a.toNat ≤ 0xFFF) :
    memWrite s a b = .ok { s with mem := s.mem.write a.toNat b } := by
  simp [memWrite, (inMem_iff a).mpr h]

theorem memWrite_error {s : State} {a : Word} {b : Byte} (h : 0xFFF < a.toNat) : memWrite s a b = .error a := by
  have : inMem a = false := by rw [← Bool.not_eq_true, inMem_iff]; omega
  simp [memWrite, this]

/-- Everything `memWrite` can do. -/
theorem memWrite_cases (s : State) (a : Word) (b : Byte) :
    (a.toNat ≤ 0xFFF ∧ memWrite s a b = .ok { s with mem := s.mem.write a.toNat b }) ∨
    (0xFFF < a.toNat ∧ memWrite s a b = .error a) := by
  rcases Nat.lt_or_ge 0xFFF a.toNat with h | h
  · exact .inr ⟨h, memWrite_error h⟩
  · exact .inl ⟨h, memWrite_ok h⟩

/-- Everything `memRead` can do. -/
theorem memRead_cases (s : State) (a : Word) :
    (a.toNat ≤ 0xFFF ∧ memRead s a = .ok (s.mem.read a.toNat)) ∨ (0xFFF < a.toNat ∧ memRead s a = .error a) := by
  rcases Nat.lt_or_ge 0xFFF a.toNat with h | h
  · exact .inr ⟨h, memRead_error h⟩
  · exact .inl ⟨h, memRead_ok h⟩

/-! ## The call stack (R121, R122) -/

/-- Everything a call can do. -/
theorem callTo_cases (op : Word) (nnn : Addr12) (s : State) :
    (s.sp ≠ 15 ∧ callTo op nnn s = .next ((s.pushed s.pc).setPC (zextAddr nnn))) ∨
    (s.sp = 15 ∧ callTo op nnn s = .next (s.raise .stackOverflow (some op) (s.pc - 2))) := by
  by_cases h : s.sp = 15
  · exact .inr ⟨h, by simp [callTo, push, maxCallDepth, h, fatalHere, State.fetchedFrom]⟩
  · exact .inl ⟨h, by simp [callTo, push, maxCallDepth, h]⟩

/-- Everything a pop can do. -/
theorem pop_cases (s : State) :
    (s.sp = 0 ∧ pop s = none) ∨
    (s.sp ≠ 0 ∧ pop s = some (s.stack.get (s.sp - 1), { s with sp := s.sp - 1 })) := by
  by_cases h : s.sp = 0
  · exact .inl ⟨h, by simp [pop, h]⟩
  · exact .inr ⟨h, by simp [pop, h]⟩

/-! ## Skips (R132) -/

/-- A skip changes `PC` only. -/
theorem skipIf_eq (c : Bool) (s : State) : skipIf c s = s.setPC (if c then s.pc + 2 else s.pc) := by
  cases c <;> rfl

/-! ## The byte loops (R56, R216) -/

/-- Everything a store loop can do: it always answers a next state, in which memory, and HALT if an address is beyond
memory, are all that changed; and memory stays canonical. -/
theorem storeBytes_frame (op : Word) : ∀ (bs : List Byte) (a : Word) (s : State),
    ∃ m h, storeBytes op bs a s = .next { s with mem := m, halt := h } ∧
      (s.mem.wf = true → m.wf = true) ∧
      (h = s.halt ∨ ∃ k < bs.length, 0xFFF < (ea a k).toNat ∧ h = some ⟨.outOfBounds, some op, ea a k⟩)
  | [], a, s => ⟨s.mem, s.halt, rfl, id, .inl rfl⟩
  | b :: bs, a, s => by
    rcases memWrite_cases s a b with ⟨ha, e⟩ | ⟨ha, e⟩
    · obtain ⟨m, h, hs, hwf, hh⟩ := storeBytes_frame op bs (ea a 1) { s with mem := s.mem.write a.toNat b }
      refine ⟨m, h, ?_, fun hw => hwf (Memory.wf_write (Nat.lt_succ_of_le ha) hw), ?_⟩
      · simp only [storeBytes, e]; exact hs
      · rcases hh with hh | ⟨k, hk, hk2, hh⟩
        · exact .inl hh
        · exact .inr ⟨k + 1, by simpa using hk, by rwa [ea_ea, Nat.add_comm 1 k] at hk2, by
            rwa [ea_ea, Nat.add_comm 1 k] at hh⟩
    · refine ⟨s.mem, some ⟨.outOfBounds, some op, a⟩, ?_, id, .inr ⟨0, by simp, by simpa using ha, by simp⟩⟩
      simp only [storeBytes, e]; rfl

/-- Everything a load loop can do: it always answers a next state, in which the `V` registers, and HALT if an address is
beyond memory, are all that changed. -/
theorem loadRegs_frame (op : Word) : ∀ (rs : List RegIdx) (a : Word) (s : State),
    ∃ v h, loadRegs op rs a s = .next { s with v := v, halt := h } ∧
      (h = s.halt ∨ ∃ k < rs.length, 0xFFF < (ea a k).toNat ∧ h = some ⟨.outOfBounds, some op, ea a k⟩)
  | [], a, s => ⟨s.v, s.halt, rfl, .inl rfl⟩
  | r :: rs, a, s => by
    rcases memRead_cases s a with ⟨ha, e⟩ | ⟨ha, e⟩
    · obtain ⟨v, h, hs, hh⟩ := loadRegs_frame op rs (ea a 1) (s.setV r (s.mem.read a.toNat))
      refine ⟨v, h, by simp only [loadRegs, e]; exact hs, ?_⟩
      rcases hh with hh | ⟨k, hk, hk2, hh⟩
      · exact .inl hh
      · exact .inr ⟨k + 1, by simpa using hk, by rwa [ea_ea, Nat.add_comm 1 k] at hk2, by
          rwa [ea_ea, Nat.add_comm 1 k] at hh⟩
    · refine ⟨s.v, some ⟨.outOfBounds, some op, a⟩, ?_, .inr ⟨0, by simp, by simpa using ha, by simp⟩⟩
      simp only [loadRegs, e]; rfl

/-- A store loop in full: the bytes that fit below 0x1000 are written as the loader would write them, and HALT is untouched
or receives OutOfBounds at the first address that does not exist (R56, R164, R166, R216). -/
theorem storeBytes_eq (op : Word) : ∀ (bs : List Byte) (a : Word) (s : State),
    storeBytes op bs a s = .next { s with
      mem := s.mem.writeBytes a.toNat (bs.take (0x1000 - a.toNat)),
      halt := if bs = [] ∨ a.toNat + bs.length ≤ 0x1000 then s.halt
        else some ⟨.outOfBounds, some op, if a.toNat ≤ 0xFFF then 0x1000 else a⟩ }
  | [], a, s => by simp [storeBytes, Memory.writeBytes]
  | b :: bs, a, s => by
    by_cases ha : a.toNat ≤ 0xFFF
    · have h1 : (ea a 1).toNat = a.toNat + 1 := ea_toNat (by omega)
      have ht : 0x1000 - a.toNat = (0x1000 - (a.toNat + 1)) + 1 := by omega
      have e : (if (ea a 1).toNat ≤ 0xFFF then (0x1000 : Word) else ea a 1) = 0x1000 := by
        split
        · rfl
        · have : (0x1000 : Word).toNat = 0x1000 := rfl
          exact BitVec.eq_of_toNat_eq (by omega)
      simp only [storeBytes, memWrite_ok ha, storeBytes_eq op bs (ea a 1), h1]
      rw [← h1, e, h1, ht, List.take_succ_cons, Memory.writeBytes, if_pos ha]
      have hc : (bs = [] ∨ a.toNat + 1 + bs.length ≤ 0x1000) ↔
          (b :: bs = [] ∨ a.toNat + (b :: bs).length ≤ 0x1000) := by
        cases bs <;> simp <;> omega
      simp only [hc]
    · have h0 : 0x1000 - a.toNat = 0 := by omega
      have hc : ¬ (b :: bs = [] ∨ a.toNat + (b :: bs).length ≤ 0x1000) := by simp; omega
      simp only [storeBytes, memWrite_error (show 0xFFF < a.toNat by omega), fatalBounds, State.raise, h0,
        List.take_zero, Memory.writeBytes, if_neg hc, if_neg ha]

/-- A load loop in full, over distinct registers: the registers whose byte exists are loaded, no other register changes,
and HALT is untouched or receives OutOfBounds at the first address that does not exist (R56, R167, R216). -/
theorem loadRegs_eq (op : Word) : ∀ (rs : List RegIdx) (a : Word) (s : State), rs.Nodup →
    ∃ v, loadRegs op rs a s = .next { s with
        v := v,
        halt := if rs = [] ∨ a.toNat + rs.length ≤ 0x1000 then s.halt
          else some ⟨.outOfBounds, some op, if a.toNat ≤ 0xFFF then 0x1000 else a⟩ } ∧
      (∀ k (hk : k < rs.length), a.toNat + k ≤ 0xFFF → v.get rs[k] = s.mem.read (a.toNat + k)) ∧
      (∀ r, (∀ k (hk : k < rs.length), rs[k] = r → 0xFFF < a.toNat + k) → v.get r = s.getV r)
  | [], a, s, _ => ⟨s.v, by simp [loadRegs], by simp, fun _ _ => rfl⟩
  | r :: rs, a, s, hn => by
    obtain ⟨hr, hn'⟩ := List.nodup_cons.mp hn
    by_cases ha : a.toNat ≤ 0xFFF
    · have h1 : (ea a 1).toNat = a.toNat + 1 := ea_toNat (by omega)
      have e : (if (ea a 1).toNat ≤ 0xFFF then (0x1000 : Word) else ea a 1) = 0x1000 := by
        split
        · rfl
        · have : (0x1000 : Word).toNat = 0x1000 := rfl
          exact BitVec.eq_of_toNat_eq (by omega)
      obtain ⟨v, hv, hin, hout⟩ := loadRegs_eq op rs (ea a 1) (s.setV r (s.mem.read a.toNat)) hn'
      have hc : (rs = [] ∨ a.toNat + 1 + rs.length ≤ 0x1000) ↔
          (r :: rs = [] ∨ a.toNat + (r :: rs).length ≤ 0x1000) := by
        cases rs <;> simp <;> omega
      refine ⟨v, ?_, ?_, ?_⟩
      · simp only [loadRegs, memRead_ok ha, hv, e]
        simp only [h1, hc, if_pos ha]
        rfl
      · intro k hk hka
        cases k with
        | zero =>
          have h0 := hout r (fun k hk e => absurd (e ▸ List.getElem_mem hk) hr)
          simpa using h0
        | succ k =>
          have h2 := hin k (by simpa using hk) (by omega)
          simpa [h1, Nat.add_assoc, Nat.add_comm 1 k] using h2
      · intro q hq
        have hqr : q ≠ r := by
          rintro rfl
          have := hq 0 (by simp) rfl
          omega
        have h3 := hout q (fun k hk e => by
          have := hq (k + 1) (by simpa using hk) (by simpa using e)
          omega)
        simpa [hqr] using h3
    · have hc : ¬ (r :: rs = [] ∨ a.toNat + (r :: rs).length ≤ 0x1000) := by simp; omega
      refine ⟨s.v, ?_, fun k hk hka => absurd hka (by omega), fun _ _ => rfl⟩
      simp only [loadRegs, memRead_error (show 0xFFF < a.toNat by omega), fatalBounds, State.raise, if_neg hc, if_neg ha]

/-- The register range of R166 and R167 has no repeats. -/
theorem regsUpTo_nodup (x : RegIdx) : (regsUpTo x).Nodup := by
  revert x; decide

@[simp] theorem regsUpTo_length (x : RegIdx) : (regsUpTo x).length = x.val + 1 := by
  revert x; decide

/-- The `k`-th register of the range is register `k`. -/
theorem regsUpTo_getElem {x : RegIdx} {k : Nat} (h : k < (regsUpTo x).length) : ((regsUpTo x)[k]).val = k := by
  have h2 : ∀ (x : RegIdx) (k : Fin 16), (h : k.val < (regsUpTo x).length) → ((regsUpTo x)[k.val]).val = k.val := by
    decide
  have h3 : k < 16 := by rw [regsUpTo_length] at h; have := x.isLt; omega
  exact h2 x ⟨k, h3⟩ h

/-- A read of bytes that all lie in memory. -/
theorem readBytes_ok (s : State) : ∀ (n : Nat) (a : Word), (n = 0 ∨ a.toNat + n ≤ 0x1000) →
    readBytes s n a = .ok ((List.range n).map fun k => s.mem.read (a.toNat + k))
  | 0, _, _ => rfl
  | n + 1, a, h => by
    have ha : a.toNat ≤ 0xFFF := by omega
    have ih := readBytes_ok s n (ea a 1) (by
      rcases Nat.eq_zero_or_pos n with h0 | h0
      · exact .inl h0
      · exact .inr (by rw [ea_toNat (by omega)]; omega))
    simp only [readBytes, memRead_ok ha, ih, List.range_succ_eq_map, List.map_cons, List.map_map, Nat.add_zero]
    congr 2
    apply List.map_congr_left
    intro k hk
    rw [List.mem_range] at hk
    simp only [Function.comp]
    rw [ea_toNat (by omega)]
    congr 1; omega

/-- A read of bytes some of which lie beyond memory: the first offending address (R179). -/
theorem readBytes_error (s : State) : ∀ (n : Nat) (a : Word), n ≠ 0 → 0x1000 < a.toNat + n → n ≤ 0x1000 →
    readBytes s n a = .error (if 0xFFF < a.toNat then a else 0x1000)
  | 0, _, h, _, _ => absurd rfl h
  | n + 1, a, _, h, hn => by
    by_cases ha : 0xFFF < a.toNat
    · simp [readBytes, memRead_error ha, ha]
    · have h1 : (ea a 1).toNat = a.toNat + 1 := ea_toNat (by omega)
      have ih := readBytes_error s n (ea a 1) (by omega) (by omega) (by omega)
      have e : (if 0xFFF < (ea a 1).toNat then ea a 1 else 0x1000) = (0x1000 : Word) := by
        split
        · have : (0x1000 : Word).toNat = 0x1000 := rfl
          exact BitVec.eq_of_toNat_eq (by omega)
        · rfl
      rw [e] at ih
      simp [readBytes, memRead_ok (by omega : a.toNat ≤ 0xFFF), ih, ha]

/-! ## The display (R30, R176) -/

/-- Reading a cell after writing one. -/
@[simp] theorem Framebuffer.cell_setCell (f : Framebuffer) (r r' : Fin 32) (c c' : Fin 64) (b : Bool) :
    (f.setCell r c b).cell r' c' = if r' = r ∧ c' = c then b else f.cell r' c' := by
  simp only [Framebuffer.cell, Framebuffer.setCell, Vector.get_eq_getElem, Vector.getElem_set, Fin.ext_iff]
  by_cases hr : r.val = r'.val
  · by_cases hc : c.val = c'.val
    · simp [hr, hc]
    · simp [hr, hc, Ne.symm hc]
  · simp [hr, Ne.symm hr]

/-- All cells of a cleared screen are 0. -/
@[simp] theorem Framebuffer.cell_clear (r : Fin 32) (c : Fin 64) : Framebuffer.clear.cell r c = false := by
  simp [Framebuffer.cell, Framebuffer.clear, Vector.get_eq_getElem]

/-! ## Fetch (R51, R102) -/

/-- A fetch that completes reads the two bytes big-endian. -/
theorem fetchWord_ok {s : State} (h : s.pc.toNat ≤ 0xFFE) :
    fetchWord s = .ok (wordOfBytes (s.mem.read s.pc.toNat) (s.mem.read (s.pc.toNat + 1))) := by
  have h1 : (s.pc + 1).toNat = s.pc.toNat + 1 := by
    have : (1 : Word).toNat = 1 := rfl
    rw [BitVec.toNat_add]; omega
  simp only [fetchWord, memRead_ok (show s.pc.toNat ≤ 0xFFF by omega),
    memRead_ok (show (s.pc + 1).toNat ≤ 0xFFF by omega), h1]

/-- A fetch that does not: the first offending address, `PC` or 0x1000. -/
theorem fetchWord_error {s : State} (h : 0xFFE < s.pc.toNat) :
    fetchWord s = .error (if s.pc = 0xFFF then 0x1000 else s.pc) := by
  by_cases he : s.pc = 0xFFF
  · have h2 : (s.pc + 1).toNat = 0x1000 := by rw [he]; rfl
    have h3 : s.pc + 1 = 0x1000 := by rw [he]; rfl
    have h4 : s.pc.toNat ≤ 0xFFF := by rw [he]; decide
    have h5 := memRead_error (s := s) (a := s.pc + 1) (by omega)
    rw [fetchWord, memRead_ok h4]
    rw [h3] at h5
    simp only [h3, h5, if_pos he]
  · have : 0xFFF < s.pc.toNat := by
      rcases Nat.lt_or_ge 0xFFF s.pc.toNat with h5 | h5
      · exact h5
      · have : (0xFFF : Word).toNat = 0xFFF := rfl
        exact absurd (BitVec.eq_of_toNat_eq (by omega)) he
    simp only [fetchWord, memRead_error this, if_neg he]

/-- Everything a CPU step can do before the execute phase (R101). -/
theorem stepCpu_cases (s : State) :
    (∃ r, s.halt = some r ∧ stepCpu s = .fault (.halted r)) ∨
    (s.halt = none ∧ 0xFFE < s.pc.toNat ∧
      stepCpu s = .next (s.raise .outOfBounds none (if s.pc = 0xFFF then 0x1000 else s.pc))) ∨
    (s.halt = none ∧ s.pc.toNat ≤ 0xFFE ∧
      stepCpu s = executeWord (wordOfBytes (s.mem.read s.pc.toNat) (s.mem.read (s.pc.toNat + 1)))
        (s.setPC (s.pc + 2))) := by
  cases hh : s.halt with
  | some r => exact .inl ⟨r, rfl, by simp [stepCpu, hh]⟩
  | none =>
    rcases Nat.lt_or_ge 0xFFE s.pc.toNat with h | h
    · exact .inr (.inl ⟨rfl, h, by simp only [stepCpu, hh, fetchWord_error h]⟩)
    · exact .inr (.inr ⟨rfl, h, by simp only [stepCpu, hh, fetchWord_ok h]⟩)

/-! ## The host's events (R62, R100) -/

/-- Everything taking an event can change: the schedule. -/
theorem takeEvent_frame (s : State) : ∃ es o, s.takeEvent.2 = { s with events := es, after := o } := by
  unfold State.takeEvent
  split
  · exact ⟨_, s.after, rfl⟩
  · split
    · exact ⟨s.events, s.after, rfl⟩
    · exact ⟨_, s.after, rfl⟩
    · exact ⟨s.events, _, rfl⟩

/-- A step, when the next event and the state with it taken are known. -/
theorem nextEvent_of_takeEvent {s s' : State} {e : Event} (h : s.takeEvent = (e, s')) : nextEvent s = s'.perform e := by
  rw [nextEvent, h]

/-- A run whose first step answers a next state goes on from that state. -/
theorem run_succ {M : Host.Core} {s s' : M.State} (h : M.step s = .next s') (k : Nat) : M.run (k + 1) s = M.run k s' := by
  rw [Host.Core.run, h]

end Sys2Proof.Machine
end

