-- ==== Sys2Proof/Laws/PerInstr.lean ====
section
/-! SUPPORT. Laws stated per instruction. TableRow: the word of a well-formed instruction selects that instruction's row of
the opcode table (R92 of 30_encoding.md), one lemma per constructor. -/

namespace Sys2Proof.Laws.TableRow

/-- The word the encoder writes for a well-formed instruction selects the instruction's own row. -/
def Statement (i : Instr) : Prop := i.wellFormed = true → i.row.selects (encode i) = true

theorem selects_of_and {r : OpcodeRow} {w : Word} (he : r.except = []) (h : w &&& r.mask = r.value) :
    r.selects w = true := by
  simp [OpcodeRow.selects, he, h]

theorem formatA_and (a : BitVec 4) (nnn : Addr12) : (formatA a nnn &&& 0xF000).toNat = a.toNat * 4096 := by
  have h := formatA_toNat a nnn
  rw [and_F000_toNat]; omega

theorem formatX_and (a : BitVec 4) (x : RegIdx) (nn : Byte) : (formatX a x nn &&& 0xF000).toNat = a.toNat * 4096 := by
  have h := formatX_toNat a x nn
  rw [and_F000_toNat]; omega

theorem formatX_andSelector (a : BitVec 4) (x : RegIdx) (nn : Byte) :
    (formatX a x nn &&& 0xF0FF).toNat = a.toNat * 4096 + nn.toNat := by
  have h := formatX_toNat a x nn
  rw [and_F0FF_toNat]; omega

theorem formatXY_and (a : BitVec 4) (x y : RegIdx) (n : Fin 16) :
    (formatXY a x y n &&& 0xF000).toNat = a.toNat * 4096 := by
  have h := formatXY_toNat a x y n
  rw [and_F000_toNat]; omega

theorem formatXY_andSelector (a : BitVec 4) (x y : RegIdx) (n : Fin 16) :
    (formatXY a x y n &&& 0xF00F).toNat = a.toNat * 4096 + n.val := by
  have h := formatXY_toNat a x y n
  rw [and_F00F_toNat]; omega

theorem cls : Statement (.cls) := fun _ => by decide
theorem ret : Statement (.ret) := fun _ => by decide
theorem call0 (nnn : Addr12) : Statement (.call0 nnn) := by
  intro h
  have hn : nnn ≠ 0x0E0 ∧ nnn ≠ 0x0EE := by simpa [Instr.wellFormed] using h
  have he : (encode (.call0 nnn)).toNat = nnn.toNat := (formatA_toNat 0x0 nnn).trans (by simp)
  have h1 : encode (.call0 nnn) &&& 0xF000 = 0x0000 := BitVec.eq_of_toNat_eq (formatA_and _ _)
  have h2 : encode (.call0 nnn) ≠ 0x00E0 := fun e => hn.1 (BitVec.eq_of_toNat_eq (he.symm.trans (e ▸ rfl)))
  have h3 : encode (.call0 nnn) ≠ 0x00EE := fun e => hn.2 (BitVec.eq_of_toNat_eq (he.symm.trans (e ▸ rfl)))
  simp only [OpcodeRow.selects, Instr.row, h1, List.contains_cons, List.contains_nil, Bool.or_false, beq_self_eq_true,
    Bool.true_and, beq_eq_false_iff_ne.mpr h2, beq_eq_false_iff_ne.mpr h3, Bool.not_false]
theorem jp (nnn : Addr12) : Statement (.jp nnn) :=
  fun _ => selects_of_and rfl (BitVec.eq_of_toNat_eq (formatA_and _ _))
theorem call (nnn : Addr12) : Statement (.call nnn) :=
  fun _ => selects_of_and rfl (BitVec.eq_of_toNat_eq (formatA_and _ _))
theorem seVxNn (x : RegIdx) (nn : Byte) : Statement (.seVxNn x nn) :=
  fun _ => selects_of_and rfl (BitVec.eq_of_toNat_eq (formatX_and _ _ _))
theorem sneVxNn (x : RegIdx) (nn : Byte) : Statement (.sneVxNn x nn) :=
  fun _ => selects_of_and rfl (BitVec.eq_of_toNat_eq (formatX_and _ _ _))
theorem seVxVy (x : RegIdx) (y : RegIdx) : Statement (.seVxVy x y) :=
  fun _ => selects_of_and rfl (BitVec.eq_of_toNat_eq (formatXY_andSelector _ _ _ _))
theorem ldVxNn (x : RegIdx) (nn : Byte) : Statement (.ldVxNn x nn) :=
  fun _ => selects_of_and rfl (BitVec.eq_of_toNat_eq (formatX_and _ _ _))
theorem addVxNn (x : RegIdx) (nn : Byte) : Statement (.addVxNn x nn) :=
  fun _ => selects_of_and rfl (BitVec.eq_of_toNat_eq (formatX_and _ _ _))
theorem ldVxVy (x : RegIdx) (y : RegIdx) : Statement (.ldVxVy x y) :=
  fun _ => selects_of_and rfl (BitVec.eq_of_toNat_eq (formatXY_andSelector _ _ _ _))
theorem or (x : RegIdx) (y : RegIdx) : Statement (.or x y) :=
  fun _ => selects_of_and rfl (BitVec.eq_of_toNat_eq (formatXY_andSelector _ _ _ _))
theorem and (x : RegIdx) (y : RegIdx) : Statement (.and x y) :=
  fun _ => selects_of_and rfl (BitVec.eq_of_toNat_eq (formatXY_andSelector _ _ _ _))
theorem xor (x : RegIdx) (y : RegIdx) : Statement (.xor x y) :=
  fun _ => selects_of_and rfl (BitVec.eq_of_toNat_eq (formatXY_andSelector _ _ _ _))
theorem addVxVy (x : RegIdx) (y : RegIdx) : Statement (.addVxVy x y) :=
  fun _ => selects_of_and rfl (BitVec.eq_of_toNat_eq (formatXY_andSelector _ _ _ _))
theorem sub (x : RegIdx) (y : RegIdx) : Statement (.sub x y) :=
  fun _ => selects_of_and rfl (BitVec.eq_of_toNat_eq (formatXY_andSelector _ _ _ _))
theorem shr (x : RegIdx) : Statement (.shr x) :=
  fun _ => selects_of_and rfl (BitVec.eq_of_toNat_eq (formatXY_andSelector _ _ _ _))
theorem subn (x : RegIdx) (y : RegIdx) : Statement (.subn x y) :=
  fun _ => selects_of_and rfl (BitVec.eq_of_toNat_eq (formatXY_andSelector _ _ _ _))
theorem shl (x : RegIdx) : Statement (.shl x) :=
  fun _ => selects_of_and rfl (BitVec.eq_of_toNat_eq (formatXY_andSelector _ _ _ _))
theorem sneVxVy (x : RegIdx) (y : RegIdx) : Statement (.sneVxVy x y) :=
  fun _ => selects_of_and rfl (BitVec.eq_of_toNat_eq (formatXY_andSelector _ _ _ _))
theorem ldINnn (nnn : Addr12) : Statement (.ldINnn nnn) :=
  fun _ => selects_of_and rfl (BitVec.eq_of_toNat_eq (formatA_and _ _))
theorem jpV0 (nnn : Addr12) : Statement (.jpV0 nnn) :=
  fun _ => selects_of_and rfl (BitVec.eq_of_toNat_eq (formatA_and _ _))
theorem rnd (x : RegIdx) (nn : Byte) : Statement (.rnd x nn) :=
  fun _ => selects_of_and rfl (BitVec.eq_of_toNat_eq (formatX_and _ _ _))
theorem drw (x : RegIdx) (y : RegIdx) (n : Fin 16) : Statement (.drw x y n) :=
  fun _ => selects_of_and rfl (BitVec.eq_of_toNat_eq (formatXY_and _ _ _ _))
theorem skp (x : RegIdx) : Statement (.skp x) :=
  fun _ => selects_of_and rfl (BitVec.eq_of_toNat_eq (formatX_andSelector _ _ _))
theorem sknp (x : RegIdx) : Statement (.sknp x) :=
  fun _ => selects_of_and rfl (BitVec.eq_of_toNat_eq (formatX_andSelector _ _ _))
theorem ldVxDt (x : RegIdx) : Statement (.ldVxDt x) :=
  fun _ => selects_of_and rfl (BitVec.eq_of_toNat_eq (formatX_andSelector _ _ _))
theorem ldVxK (x : RegIdx) : Statement (.ldVxK x) :=
  fun _ => selects_of_and rfl (BitVec.eq_of_toNat_eq (formatX_andSelector _ _ _))
theorem ldDtVx (x : RegIdx) : Statement (.ldDtVx x) :=
  fun _ => selects_of_and rfl (BitVec.eq_of_toNat_eq (formatX_andSelector _ _ _))
theorem ldStVx (x : RegIdx) : Statement (.ldStVx x) :=
  fun _ => selects_of_and rfl (BitVec.eq_of_toNat_eq (formatX_andSelector _ _ _))
theorem addIVx (x : RegIdx) : Statement (.addIVx x) :=
  fun _ => selects_of_and rfl (BitVec.eq_of_toNat_eq (formatX_andSelector _ _ _))
theorem ldFVx (x : RegIdx) : Statement (.ldFVx x) :=
  fun _ => selects_of_and rfl (BitVec.eq_of_toNat_eq (formatX_andSelector _ _ _))
theorem ldBVx (x : RegIdx) : Statement (.ldBVx x) :=
  fun _ => selects_of_and rfl (BitVec.eq_of_toNat_eq (formatX_andSelector _ _ _))
theorem ldMiVx (x : RegIdx) : Statement (.ldMiVx x) :=
  fun _ => selects_of_and rfl (BitVec.eq_of_toNat_eq (formatX_andSelector _ _ _))
theorem ldVxMi (x : RegIdx) : Statement (.ldVxMi x) :=
  fun _ => selects_of_and rfl (BitVec.eq_of_toNat_eq (formatX_andSelector _ _ _))

/-- The law for every instruction, from the lemmas above. -/
theorem all (i : Instr) : Statement i := by
  cases i
  case cls => exact cls
  case ret => exact ret
  case call0 nnn => exact call0 nnn
  case jp nnn => exact jp nnn
  case call nnn => exact call nnn
  case seVxNn x nn => exact seVxNn x nn
  case sneVxNn x nn => exact sneVxNn x nn
  case seVxVy x y => exact seVxVy x y
  case ldVxNn x nn => exact ldVxNn x nn
  case addVxNn x nn => exact addVxNn x nn
  case ldVxVy x y => exact ldVxVy x y
  case or x y => exact or x y
  case and x y => exact and x y
  case xor x y => exact xor x y
  case addVxVy x y => exact addVxVy x y
  case sub x y => exact sub x y
  case shr x => exact shr x
  case subn x y => exact subn x y
  case shl x => exact shl x
  case sneVxVy x y => exact sneVxVy x y
  case ldINnn nnn => exact ldINnn nnn
  case jpV0 nnn => exact jpV0 nnn
  case rnd x nn => exact rnd x nn
  case drw x y n => exact drw x y n
  case skp x => exact skp x
  case sknp x => exact sknp x
  case ldVxDt x => exact ldVxDt x
  case ldVxK x => exact ldVxK x
  case ldDtVx x => exact ldDtVx x
  case ldStVx x => exact ldStVx x
  case addIVx x => exact addIVx x
  case ldFVx x => exact ldFVx x
  case ldBVx x => exact ldBVx x
  case ldMiVx x => exact ldMiVx x
  case ldVxMi x => exact ldVxMi x

end Sys2Proof.Laws.TableRow
end

