-- ==== Sys2Proof/Laws/Sprite.lean ====
section
/-! SUPPORT. The sprite unit: what drawing a list of pixels on distinct cells leaves on each cell and reports, and which
pixels a sprite has. -/

namespace Sys2Proof.Machine

/-- Two pixels on different cells. -/
def Pixel.Apart (p q : Pixel) : Prop := ¬ (q.row = p.row ∧ q.col = p.col)

/-- Drawing pixels on distinct cells: a cell is flipped exactly by a 1 bit that falls on it, and a collision is reported
exactly when a 1 bit falls on a cell lit before the draw (R178, R180). -/
theorem foldl_plot : ∀ (ps : List Pixel) (f : Framebuffer) (c : Bool), ps.Pairwise Pixel.Apart →
    (∀ row col, (ps.foldl plot (f, c)).1.cell row col =
      xor (f.cell row col) (ps.any fun p => decide (p.row = row) && decide (p.col = col) && p.bit)) ∧
    (ps.foldl plot (f, c)).2 = (c || ps.any fun p => p.bit && f.cell p.row p.col)
  | [], _, _, _ => by simp
  | p :: ps, f, c, h => by
    obtain ⟨hp, hps⟩ := List.pairwise_cons.mp h
    obtain ⟨h1, h2⟩ := foldl_plot ps (f.setCell p.row p.col (xor (f.cell p.row p.col) p.bit))
      (c || (p.bit && f.cell p.row p.col)) hps
    have hany : ∀ q ∈ ps, (f.setCell p.row p.col (xor (f.cell p.row p.col) p.bit)).cell q.row q.col =
        f.cell q.row q.col := by
      intro q hq
      rw [Framebuffer.cell_setCell, if_neg (hp q hq)]
    constructor
    · intro row col
      rw [List.foldl_cons, List.any_cons]
      rw [show plot (f, c) p = (f.setCell p.row p.col (xor (f.cell p.row p.col) p.bit),
        c || (p.bit && f.cell p.row p.col)) from rfl, h1]
      by_cases hc : row = p.row ∧ col = p.col
      · obtain ⟨rfl, rfl⟩ := hc
        have hnone : (ps.any fun q => decide (q.row = p.row) && decide (q.col = p.col) && q.bit) = false := by
          rw [List.any_eq_false]
          intro q hq
          have := hp q hq
          simp only [Pixel.Apart, not_and] at this
          simp only [Bool.and_eq_true, decide_eq_true_eq]
          rintro ⟨⟨e1, e2⟩, -⟩
          exact this e1 e2
        simp [hnone]
      · have hc2 : (decide (p.row = row) && decide (p.col = col) && p.bit) = false := by
          rcases not_and_or.mp hc with h | h <;> simp [Ne.symm h]
        rw [Framebuffer.cell_setCell, if_neg hc, hc2, Bool.false_or]
    · rw [List.foldl_cons, List.any_cons]
      rw [show plot (f, c) p = (f.setCell p.row p.col (xor (f.cell p.row p.col) p.bit),
        c || (p.bit && f.cell p.row p.col)) from rfl, h2]
      have : (ps.any fun q => q.bit && (f.setCell p.row p.col (xor (f.cell p.row p.col) p.bit)).cell q.row q.col) =
          ps.any fun q => q.bit && f.cell q.row q.col := by
        rw [Bool.eq_iff_iff, List.any_eq_true, List.any_eq_true]
        constructor <;> rintro ⟨q, hq, e⟩ <;> exact ⟨q, hq, by simpa [hany q hq] using e⟩
      rw [this, Bool.or_assoc]

theorem mem_spriteColumns {c : Nat} : c ∈ spriteColumns ↔ c < 8 := by
  simp only [spriteColumns, List.mem_cons, List.not_mem_nil, or_false]
  omega

/-- The pixels of a sprite: one for each byte and each of its eight columns. -/
theorem mem_spritePixels {x0 y0 : Byte} {p : Pixel} : ∀ {r : Nat} {bs : List Byte},
    p ∈ spritePixels x0 y0 r bs ↔
      ∃ k, ∃ h : k < bs.length, ∃ c < 8, p = spritePixel x0 y0 (r + k) bs[k] c
  | r, [] => by simp [spritePixels]
  | r, b :: bs => by
    simp only [spritePixels, List.mem_append, List.mem_map, mem_spriteColumns, mem_spritePixels (bs := bs)]
    constructor
    · rintro (⟨c, hc, rfl⟩ | ⟨k, hk, c, hc, rfl⟩)
      · exact ⟨0, by simp, c, hc, rfl⟩
      · exact ⟨k + 1, by simpa using hk, c, hc, by simp [Nat.add_assoc, Nat.add_comm 1 k]⟩
    · rintro ⟨k, hk, c, hc, rfl⟩
      cases k with
      | zero => exact .inl ⟨c, hc, rfl⟩
      | succ k => exact .inr ⟨k, by simpa using hk, c, hc, by simp [Nat.add_assoc, Nat.add_comm 1 k]⟩

@[simp] theorem spritePixel_row (x0 y0 : Byte) (r : Nat) (b : Byte) (c : Nat) :
    (spritePixel x0 y0 r b c).row.val = (y0.toNat + r) % 32 := rfl

@[simp] theorem spritePixel_col (x0 y0 : Byte) (r : Nat) (b : Byte) (c : Nat) :
    (spritePixel x0 y0 r b c).col.val = (x0.toNat + c) % 64 := rfl

@[simp] theorem spritePixel_bit (x0 y0 : Byte) (r : Nat) (b : Byte) (c : Nat) :
    (spritePixel x0 y0 r b c).bit = b.getLsbD (7 - c) := rfl

/-- "Inside one DRW no cell is visited twice" (R180): a sprite of at most 32 rows has its pixels on distinct cells. -/
theorem spritePixels_apart (x0 y0 : Byte) : ∀ (r : Nat) (bs : List Byte), bs.length ≤ 32 →
    (spritePixels x0 y0 r bs).Pairwise Pixel.Apart
  | _, [], _ => List.Pairwise.nil
  | r, b :: bs, h => by
    simp only [List.length_cons] at h
    rw [spritePixels, List.pairwise_append]
    refine ⟨?_, spritePixels_apart x0 y0 (r + 1) bs (by omega), ?_⟩
    · rw [List.pairwise_map]
      refine List.Pairwise.imp_of_mem ?_ (show spriteColumns.Pairwise (· ≠ ·) by decide)
      intro c d hc hd hne hcell
      have hcol := congrArg Fin.val hcell.2
      rw [mem_spriteColumns] at hc hd
      rw [spritePixel_col, spritePixel_col] at hcol
      omega
    · intro p hp q hq hcell
      rw [List.mem_map] at hp
      obtain ⟨c, hc, rfl⟩ := hp
      obtain ⟨k, hk, d, hd, rfl⟩ := mem_spritePixels.mp hq
      have hrow := congrArg Fin.val hcell.1
      rw [spritePixel_row, spritePixel_row] at hrow
      omega

end Sys2Proof.Machine
end

