-- ==== Sys2Proof/Tests/Slice0.lean ====
section
/-! SUPPORT. The model's own tests. Every expected value stands in spec/95_test_vectors.md (the id or section is named at
the test) or is computed by hand from the cited rule. Then, for every statement with hypotheses, a witness that meets
them. -/

namespace Sys2Proof.Tests

open Sys2Proof.Machine Sys2Proof.Claim

/-! ## Helpers -/

/-- The reset state with some registers set. -/
def regs (l : List (RegIdx × Byte)) : State := l.foldl (fun s p => s.setV p.1 p.2) State.reset

/-- The first step from `s`, of the word `op` placed at `PC`. -/
def run (op : Nat) (s : State) : Result := step (s.withFetchWord 16 op)

/-- The result is a next state with the property `p`. -/
def After (r : Result) (p : State → Bool) : Bool :=
  match r with
  | .next t => p t
  | .fault _ => false
  | .refused _ => false

/-- The reset state with bytes stored from an address on, and `I` there. -/
def dataAt (a : Word) (bytes : List Byte) (s : State) : State := { s with i := a, mem := s.mem.writeBytes a.toNat bytes }

/-! ## WellFormed: the two targets CALL0 cannot have (R90), and their neighbours -/

theorem test_call0_at_the_word_of_cls_is_ill_formed : (Instr.call0 0x0E0).wellFormed = false := by decide
theorem test_call0_at_the_word_of_ret_is_ill_formed : (Instr.call0 0x0EE).wellFormed = false := by decide
theorem test_call0_neighbours_are_well_formed :
    (Instr.call0 0x0E1).wellFormed = true ∧ (Instr.call0 0x1E0).wellFormed = true ∧ (Instr.call 0x0E0).wellFormed = true := by
  decide

/-! ## Decoding (95_test_vectors.md 2.1; every constructor) -/

theorem test_decode_family0 :
    decodeWord 0x00E0 = some .cls ∧ decodeWord 0x00EE = some .ret ∧ decodeWord 0x0000 = some (.call0 0x000) ∧
    decodeWord 0x01E0 = some (.call0 0x1E0) ∧ decodeWord 0x0FEE = some (.call0 0xFEE) ∧
    decodeWord 0x0FFF = some (.call0 0xFFF) := by decide

theorem test_decode_address_forms :
    decodeWord 0x1234 = some (.jp 0x234) ∧ decodeWord 0x2ABC = some (.call 0xABC) ∧
    decodeWord 0xA123 = some (.ldINnn 0x123) ∧ decodeWord 0xB010 = some (.jpV0 0x010) := by decide

theorem test_decode_immediate_forms :
    decodeWord 0x3A42 = some (.seVxNn 0xA 0x42) ∧ decodeWord 0x4B00 = some (.sneVxNn 0xB 0x00) ∧
    decodeWord 0x6CFF = some (.ldVxNn 0xC 0xFF) ∧ decodeWord 0x7D01 = some (.addVxNn 0xD 0x01) ∧
    decodeWord 0xC30F = some (.rnd 3 0x0F) := by decide

theorem test_decode_register_skips :
    decodeWord 0x5120 = some (.seVxVy 1 2) ∧ decodeWord 0x9120 = some (.sneVxVy 1 2) := by decide

theorem test_decode_alu :
    decodeWord 0x8120 = some (.ldVxVy 1 2) ∧ decodeWord 0x8AB1 = some (.or 0xA 0xB) ∧
    decodeWord 0x8AB2 = some (.and 0xA 0xB) ∧ decodeWord 0x8AB3 = some (.xor 0xA 0xB) ∧
    decodeWord 0x8AB4 = some (.addVxVy 0xA 0xB) ∧ decodeWord 0x8AB5 = some (.sub 0xA 0xB) ∧
    decodeWord 0x8AB7 = some (.subn 0xA 0xB) := by decide

theorem test_decode_shifts_ignore_y :
    decodeWord 0x8A06 = some (.shr 0xA) ∧ decodeWord 0x8AB6 = some (.shr 0xA) ∧ decodeWord 0x8AF6 = some (.shr 0xA) ∧
    decodeWord 0x8A0E = some (.shl 0xA) ∧ decodeWord 0x8ABE = some (.shl 0xA) := by decide

theorem test_decode_draw :
    decodeWord 0xD125 = some (.drw 1 2 5) ∧ decodeWord 0xD120 = some (.drw 1 2 0) := by decide

theorem test_decode_keys : decodeWord 0xE29E = some (.skp 2) ∧ decodeWord 0xE2A1 = some (.sknp 2) := by decide

theorem test_decode_family_f :
    decodeWord 0xF507 = some (.ldVxDt 5) ∧ decodeWord 0xF50A = some (.ldVxK 5) ∧ decodeWord 0xF515 = some (.ldDtVx 5) ∧
    decodeWord 0xF518 = some (.ldStVx 5) ∧ decodeWord 0xF51E = some (.addIVx 5) ∧ decodeWord 0xF529 = some (.ldFVx 5) ∧
    decodeWord 0xF533 = some (.ldBVx 5) ∧ decodeWord 0xF555 = some (.ldMiVx 5) ∧ decodeWord 0xF565 = some (.ldVxMi 5) ∧
    decodeWord 0xFF65 = some (.ldVxMi 0xF) := by decide

theorem test_decode_refuses_the_invalid_words :
    ([0x5121, 0x8AB8, 0x8AB9, 0x8ABA, 0x8ABB, 0x8ABC, 0x8ABD, 0x8ABF, 0x912F, 0xE200, 0xE29F, 0xE2A0, 0xF500, 0xF530,
      0xF575, 0xF585, 0xF5FF] : List Word).all (fun w => (decodeWord w).isNone) = true := by decide

/-- R51, S11: the byte at the lower address is the high one. -/
theorem test_decode_bytes_big_endian : decode [0x12, 0x34, 0x56] = .ok (.jp 0x234, [0x56]) := by decide

theorem test_decode_table_word : decodeTableWord 16 0x2ABC = some (.call 0xABC) := by decide

/-! ## Control transfer (95_test_vectors.md 2.2) -/

/-- T1. -/
theorem test_jp : After (run 0x1234 State.reset) (fun t => t.pc == 0x0234) = true := by decide

/-- T22: a fetch at 0xFFE succeeds. -/
theorem test_jp_at_the_top_of_memory :
    After (run 0x1200 { State.reset with pc := 0x0FFE }) (fun t => t.pc == 0x0200) = true := by decide

/-- T3. -/
theorem test_call :
    After (run 0x2300 { State.reset with pc := 0x0206 })
      (fun t => t.stack.get 0 == 0x0208 && t.sp == 1 && t.pc == 0x0300) = true := by decide

/-- T8: decision D7. -/
theorem test_call_on_a_full_stack :
    After (run 0x2400 { State.reset with pc := 0x0400, sp := 15 })
      (fun t => t.halt == some ⟨.stackOverflow, some 0x2400, 0x0400⟩ && t.pc == 0x0402 && t.sp == 15) = true := by decide

/-- T4. -/
theorem test_call0 :
    After (run 0x0300 State.reset) (fun t => t.stack.get 0 == 0x0202 && t.sp == 1 && t.pc == 0x0300) = true := by decide

/-- T7, for CALL0 at depth 14: the last free entry. -/
theorem test_call0_at_depth_14 :
    After (run 0x0400 { State.reset with sp := 14 })
      (fun t => t.stack.get 14 == 0x0202 && t.sp == 15 && t.pc == 0x0400) = true := by decide

/-- A return address on the stack: T5's state before. -/
def inSubroutine : State := { State.reset with pc := 0x0300, sp := 1, stack := State.reset.stack.set 0 0x0208 }

/-- T5. -/
theorem test_ret :
    After (run 0x00EE inSubroutine) (fun t => t.sp == 0 && t.pc == 0x0208 && t.stack.get 0 == 0x0208) = true := by decide

/-- T6. -/
theorem test_ret_on_an_empty_stack :
    After (run 0x00EE { State.reset with pc := 0x0300 })
      (fun t => t.halt == some ⟨.stackUnderflow, some 0x00EE, 0x0300⟩ && t.pc == 0x0302 && t.sp == 0) = true := by decide

/-- T9 and T11. -/
theorem test_jp_v0 :
    After (run 0xB010 { regs [(0, 0x04)] with pc := 0x0202 }) (fun t => t.pc == 0x0218) = true ∧
    After (run 0xBFFF (regs [(0, 0xFF)])) (fun t => t.pc == 0x1300) = true := by decide

/-- T12, T13, T20. -/
theorem test_se_immediate :
    After (run 0x332A (regs [(3, 0x2A)])) (fun t => t.pc == 0x0204) = true ∧
    After (run 0x332A (regs [(3, 0x2B)])) (fun t => t.pc == 0x0202) = true ∧
    After (run 0x3000 { State.reset with pc := 0x0FFE }) (fun t => t.pc == 0x1002) = true := by decide

/-- T14, T15. -/
theorem test_sne_immediate :
    After (run 0x432A (regs [(3, 0x2A)])) (fun t => t.pc == 0x0202) = true ∧
    After (run 0x4300 (regs [(3, 0x2A)])) (fun t => t.pc == 0x0204) = true := by decide

/-- T16; R130 by hand for unequal registers. -/
theorem test_se_registers :
    After (run 0x5120 (regs [(1, 7), (2, 7)])) (fun t => t.pc == 0x0204) = true ∧
    After (run 0x5120 (regs [(1, 7), (2, 8)])) (fun t => t.pc == 0x0202) = true := by decide

/-- T18, T19. -/
theorem test_sne_registers :
    After (run 0x9120 (regs [(1, 7), (2, 8)])) (fun t => t.pc == 0x0204) = true ∧
    After (run 0x9110 (regs [(1, 7)])) (fun t => t.pc == 0x0202) = true := by decide

/-- T21: decision D29. -/
theorem test_fetch_at_the_last_byte :
    step { State.reset with pc := 0x0FFF } =
      .next { State.reset with pc := 0x0FFF, halt := some ⟨.outOfBounds, none, 0x1000⟩ } := rfl

/-- T23: an odd `PC`. -/
theorem test_odd_pc :
    After (run 0x6007 { State.reset with pc := 0x0201 }) (fun t => t.getV 0 == 7 && t.pc == 0x0203) = true := by decide

/-- S10 and 2.3, "Invalid selector". -/
theorem test_invalid_opcode :
    After (run 0x5121 State.reset)
      (fun t => t.halt == some ⟨.invalidOpcode, some 0x5121, 0x0200⟩ && t.pc == 0x0202) = true ∧
    After (run 0x8AB8 State.reset)
      (fun t => t.halt == some ⟨.invalidOpcode, some 0x8AB8, 0x0200⟩ && t.v == State.reset.v) = true := by decide

/-- P5: a step of a halted machine (R106). -/
theorem test_halted_step :
    step { State.reset with halt := some ⟨.outOfBounds, some 0xF055, 0x1000⟩ } =
      .fault (.halted ⟨.outOfBounds, some 0xF055, 0x1000⟩) := rfl

/-! ## Register loads and the ALU (95_test_vectors.md 2.3) -/

theorem test_ld_immediate :
    After (run 0x6A2F State.reset) (fun t => t.getV 0xA == 0x2F) = true ∧
    After (run 0x6F05 State.reset) (fun t => t.getV 0xF == 0x05) = true := by decide

/-- A wrap leaves VF as it was. -/
theorem test_add_immediate :
    After (run 0x7005 (regs [(0, 0xFE), (15, 7)])) (fun t => t.getV 0 == 0x03 && t.getV 15 == 7) = true ∧
    After (run 0x7FFF (regs [(15, 0x01)])) (fun t => t.getV 15 == 0x00) = true := by decide

theorem test_ld_register :
    After (run 0x8010 (regs [(1, 0x7C), (15, 7)])) (fun t => t.getV 0 == 0x7C && t.getV 1 == 0x7C && t.getV 15 == 7) = true := by
  decide

theorem test_or :
    After (run 0x8011 (regs [(0, 0x50), (1, 0x05), (15, 7)])) (fun t => t.getV 0 == 0x55 && t.getV 15 == 7) = true := by decide

theorem test_and :
    After (run 0x8012 (regs [(0, 0xF3), (1, 0x3F), (15, 7)])) (fun t => t.getV 0 == 0x33 && t.getV 15 == 7) = true := by decide

theorem test_xor :
    After (run 0x8013 (regs [(0, 0xFF), (1, 0x0F), (15, 7)])) (fun t => t.getV 0 == 0xF0 && t.getV 15 == 7) = true := by decide

theorem test_add_registers :
    After (run 0x8014 (regs [(0, 0x05), (1, 0xFE)])) (fun t => t.getV 0 == 0x03 && t.getV 15 == 1) = true ∧
    After (run 0x8014 (regs [(0, 0x7F), (1, 0x80), (15, 7)])) (fun t => t.getV 0 == 0xFF && t.getV 15 == 0) = true := by decide

/-- x = F and y = F (decision D15; "`VF` as an operand"). -/
theorem test_add_registers_vf :
    After (run 0x8F14 (regs [(15, 0x03), (1, 0x01)])) (fun t => t.getV 15 == 0) = true ∧
    After (run 0x8FF4 (regs [(15, 0x90)])) (fun t => t.getV 15 == 1) = true ∧
    After (run 0x80F4 (regs [(0, 0x10), (15, 0x01)])) (fun t => t.getV 0 == 0x11 && t.getV 15 == 0) = true := by decide

theorem test_sub :
    After (run 0x8015 (regs [(0, 0x05), (1, 0x06), (15, 7)])) (fun t => t.getV 0 == 0xFF && t.getV 15 == 0) = true ∧
    After (run 0x8015 (regs [(0, 0x07), (1, 0x07)])) (fun t => t.getV 0 == 0x00 && t.getV 15 == 1) = true := by decide

theorem test_sub_vf :
    After (run 0x8F15 (regs [(15, 0x03), (1, 0x04)])) (fun t => t.getV 15 == 0) = true ∧
    After (run 0x8F15 (regs [(15, 0x04), (1, 0x04)])) (fun t => t.getV 15 == 1) = true := by decide

theorem test_subn :
    After (run 0x8017 (regs [(0, 0x05), (1, 0x06)])) (fun t => t.getV 0 == 0x01 && t.getV 15 == 1) = true ∧
    After (run 0x8017 (regs [(0, 0xFF), (1, 0x00), (15, 7)])) (fun t => t.getV 0 == 0x01 && t.getV 15 == 0) = true := by decide

/-- `Vy` is not read; with x = F the result stands (decision D15). -/
theorem test_shr :
    After (run 0x8016 (regs [(0, 0x05), (1, 0xF0)])) (fun t => t.getV 0 == 0x02 && t.getV 1 == 0xF0 && t.getV 15 == 1) = true ∧
    After (run 0x8F06 (regs [(15, 0x05)])) (fun t => t.getV 15 == 0x02) = true := by decide

theorem test_shl :
    After (run 0x801E (regs [(0, 0x7F), (1, 0xF0), (15, 7)])) (fun t => t.getV 0 == 0xFE && t.getV 15 == 0) = true ∧
    After (run 0x8F0E (regs [(15, 0x81)])) (fun t => t.getV 15 == 0x02) = true := by decide

/-! ## Index register and memory (95_test_vectors.md 2.4) -/

theorem test_ld_i : After (run 0xA20C State.reset) (fun t => t.i == 0x020C) = true := by decide

theorem test_add_i :
    After (run 0xF21E { regs [(2, 0x02)] with i := 0x0FFE }) (fun t => t.i == 0x1000 && t.getV 15 == 1) = true ∧
    After (run 0xF21E { regs [(2, 0x01), (15, 7)] with i := 0xFFFF }) (fun t => t.i == 0x0000 && t.getV 15 == 0) = true := by
  decide

/-- x = F: the addend is the `VF` at entry. -/
theorem test_add_i_vf :
    After (run 0xFF1E { regs [(15, 0xFF)] with i := 0x0F00 }) (fun t => t.i == 0x0FFF && t.getV 15 == 0) = true := by decide

/-- Rows 0x0A and 0xFF (the latter decision D17). -/
theorem test_ld_f :
    After (run 0xF229 (regs [(2, 0x0A)])) (fun t => t.i == 0x0032) = true ∧
    After (run 0xF229 (regs [(2, 0xFF)])) (fun t => t.i == 0x04FB) = true := by decide

/-- S6, and "`I = 0x0FFD`: all three written, no fault". -/
theorem test_ld_b :
    After (run 0xF033 { regs [(0, 234)] with i := 0x0FFD })
      (fun t => t.mem.read 0xFFD == 2 && t.mem.read 0xFFE == 3 && t.mem.read 0xFFF == 4 && t.i == 0x0FFD && t.halt.isNone) =
      true := by decide

/-- "`LD B` near the top" (decisions D10, D19). -/
theorem test_ld_b_near_the_top :
    After (run 0xF033 { regs [(0, 234)] with i := 0x0FFE })
      (fun t => t.mem.read 0xFFE == 2 && t.mem.read 0xFFF == 3 && t.pc == 0x0202 &&
        t.halt == some ⟨.outOfBounds, some 0xF033, 0x1000⟩) = true := by decide

theorem test_store_registers :
    After (run 0xF255 { regs [(0, 0x11), (1, 0x22), (2, 0x33), (3, 0x44)] with i := 0x0300 })
      (fun t => t.mem.read 0x300 == 0x11 && t.mem.read 0x301 == 0x22 && t.mem.read 0x302 == 0x33 &&
        t.mem.read 0x303 == 0 && t.i == 0x0300) = true := by decide

/-- "with `I = 0x0FF1`: `V0..VE` go to 0xFF1..0xFFF, then `OutOfBounds(0x1000)`". -/
theorem test_store_registers_beyond_memory :
    After (run 0xFF55 { regs [(0, 0x11), (14, 0xEE), (15, 0xFF)] with i := 0x0FF1 })
      (fun t => t.mem.read 0xFF1 == 0x11 && t.mem.read 0xFFF == 0xEE &&
        t.halt == some ⟨.outOfBounds, some 0xFF55, 0x1000⟩) = true := by decide

theorem test_load_registers :
    After (run 0xF265 (dataAt 0x0400 [2, 3, 4, 5] State.reset))
      (fun t => t.getV 0 == 2 && t.getV 1 == 3 && t.getV 2 == 4 && t.getV 3 == 0 && t.i == 0x0400) = true := by decide

/-- "With `I = 0x1000` and word 0xF065". -/
theorem test_load_registers_beyond_memory :
    After (run 0xF065 { regs [(0, 9)] with i := 0x1000 })
      (fun t => t.getV 0 == 9 && t.halt == some ⟨.outOfBounds, some 0xF065, 0x1000⟩) = true := by decide

/-! ## Display (95_test_vectors.md 2.5) -/

/-- The reset state with the cell `FB[0][0]` on. -/
def lit : State := State.reset.setFB (State.reset.fb.setCell 0 0 true)

theorem test_cls :
    After (run 0x00E0 (lit.setV 15 7)) (fun t => t.fb == State.reset.fb && t.getV 15 == 7) = true := by decide

/-- V4: both wraps. -/
theorem test_drw_wraps :
    After (run 0xD012 (dataAt 0x0300 [0xF0, 0x0F] (regs [(0, 62), (1, 31), (15, 7)])))
      (fun t => t.pixel 31 62 && t.pixel 31 63 && t.pixel 31 0 && t.pixel 31 1 && !t.pixel 31 2 &&
        t.pixel 0 2 && t.pixel 0 5 && !t.pixel 0 1 && !t.pixel 0 6 && t.getV 15 == 0) = true := by decide

/-- V5: a partial collision. -/
theorem test_drw_collides :
    After (run 0xD011 (dataAt 0x0300 [0xC0] lit))
      (fun t => !t.pixel 0 0 && t.pixel 0 1 && t.getV 15 == 1) = true := by decide

/-! ## Random, keys, timers (95_test_vectors.md 2.6) -/

/-- 0xC300 gives `V3 = 0` for every `rnd_in`. -/
theorem test_rnd : ∃ t, run 0xC300 (regs [(3, 9)]) = .next t ∧ t.getV 3 = 0 ∧ t.pc = 0x0202 := by
  refine ⟨_, rfl, ?_, rfl⟩
  exact ((State.getV_setV _ _ _ _).trans (if_pos rfl)).trans BitVec.and_zero

/-- K1 and K2. -/
theorem test_skp :
    After (run 0xE29E { regs [(2, 7)] with key := some 7 }) (fun t => t.pc == 0x0204 && t.key == none) = true ∧
    After (run 0xE29E { regs [(2, 8)] with key := some 7 }) (fun t => t.pc == 0x0202 && t.key == none) = true := by decide

/-- K3 and K7. -/
theorem test_skp_without_match :
    After (run 0xE29E (regs [(2, 7)])) (fun t => t.pc == 0x0202 && t.key == none) = true ∧
    After (run 0xE29E { regs [(2, 0x17)] with key := some 7 }) (fun t => t.pc == 0x0202 && t.key == none) = true := by decide

/-- K4 and K6. -/
theorem test_sknp :
    After (run 0xE2A1 { regs [(2, 7)] with key := some 7 }) (fun t => t.pc == 0x0202 && t.key == none) = true ∧
    After (run 0xE2A1 (regs [(2, 7)])) (fun t => t.pc == 0x0204 && t.key == none) = true := by decide

/-- K9. -/
theorem test_wait_for_key :
    run 0xF20A State.reset = .next { State.reset.withFetchWord 16 0xF20A with events := [] } ∧
    (State.reset.withFetchWord 16 0xF20A).status = .awaitingKey := ⟨rfl, rfl⟩

/-- K10. -/
theorem test_wait_for_key_with_a_key :
    After (run 0xF20A { State.reset with key := some 0xB })
      (fun t => t.getV 2 == 0x0B && t.key == none && t.pc == 0x0202) = true := by decide

theorem test_ld_vx_dt : After (run 0xF507 { State.reset with dt := 0x39 }) (fun t => t.getV 5 == 0x39) = true := by decide

theorem test_ld_dt_vx : After (run 0xF515 (regs [(5, 0x3C)])) (fun t => t.dt == 0x3C && t.st == 0) = true := by decide

theorem test_ld_st_vx : After (run 0xF518 (regs [(5, 2)])) (fun t => t.st == 2 && t.dt == 0 && t.soundOn) = true := by decide

/-- "`tick`: `ST = 0`, `sound_on = 0`; `tick`: `ST = 0` (floor)", and a `tick` of a halted machine (decision D8). -/
theorem test_tick :
    After (step { State.reset with st := 1, dt := 0, events := [.tick] })
      (fun t => t.st == 0 && t.dt == 0 && !t.soundOn && t.events == []) = true ∧
    After (step { State.reset with dt := 3, halt := some ⟨.invalidOpcode, some 0x5121, 0x0200⟩, events := [.tick] })
      (fun t => t.dt == 2 && t.halt.isSome) = true := by decide

/-- R62: a host that raises `step` and `tick` in turn goes on without end: after both, the schedule is as before. -/
theorem test_schedule_starts_again :
    After (step { State.reset with after := .cycle [.tick, .step], dt := 2 })
      (fun t => t.dt == 1 && t.events == [.step] && t.after == .cycle [.tick, .step]) = true := by decide

/-- R62, U14: a host under no law. -/
theorem test_free_event (k : Nat) (h : Config.hostEvent k = .tick) :
    step { State.reset with after := .free k } = .next { State.reset with after := .free (k + 1) } := by
  simp only [step, nextEvent, State.takeEvent, show State.reset.events = [] from rfl, h]
  rfl

/-- A font that is not the default: FONT is a parameter (R7, D20). -/
def otherFont : FontImage := Vector.replicate 80 0xAA

/-- P4's first byte at 0x200, the font given at 0x000 to 0x04F (R242). -/
theorem test_boot :
    After (step { inSubroutine with events := [.boot otherFont [0x60, 0x3C]] })
      (fun t => t.mem.read 0x200 == 0x60 && t.mem.read 0x201 == 0x3C && t.mem.read 0 == 0xAA && t.mem.read 79 == 0xAA &&
        t.mem.read 80 == 0 && t.pc == 0x200 && t.sp == 0 && t.stack.get 0 == 0) = true := by decide

/-- The launch state with the default font (R57, R242). -/
theorem test_launch :
    After (launch defaultFont [0x12, 0x00])
      (fun t => t.mem.read 0 == 0xF0 && t.mem.read 79 == 0x80 && t.mem.read 0x200 == 0x12) = true := by decide

/-- R59: 3585 bytes do not fit. -/
theorem test_boot_too_large (p : List Byte) (h : p.length = 3585) :
    step { State.reset with events := [.boot defaultFont p] } = .refused .programTooLarge := by
  simp [step, nextEvent, State.takeEvent, State.perform, State.boot, load, Config.programBase, Config.memSize, h]

/-- "Self-modifying code" (95_test_vectors.md 2.4): 0xF155 stores 12 00 over 0x204..0x205, and the next fetch is 0x1200. -/
theorem test_store_is_fetched :
    After (run 0xF155 { regs [(0, 0x12)] with i := 0x0204, pc := 0x0202 })
      (fun t => t.pc == 0x0204 && fetched t == 0x1200) = true := by decide

/-! ## Witnesses: states and operands that meet the hypotheses of the statements, at the ends of their ranges -/

/-- The reset state with `PC` at `a` and the word `op` there. -/
def placed (a : Word) (op : Word) : State := { State.reset with pc := a, mem := placeWord [] a.toNat op }

/-- The same state with a `step` event at the head of the schedule. -/
def scheduled (a : Word) (op : Word) : State := { placed a op with events := [.step, .tick] }

/-- A halted machine. -/
def stopped : State := { State.reset with halt := some ⟨.stackUnderflow, some 0x00EE, 0x0200⟩ }

theorem test_witness_step_is_next_without_a_schedule (a op : Word) : StepIsNext (placed a op) (placed a op) :=
  .inr (.inl ⟨rfl, rfl, rfl, rfl⟩)
theorem test_witness_step_is_next_on_a_schedule (a op : Word) :
    StepIsNext (scheduled a op) { placed a op with events := [.tick] } := .inl ⟨[.tick], rfl, rfl⟩
theorem test_witness_event_of_a_cycle :
    EventIsNext { State.reset with after := .cycle [.tick, .step] } .tick
      { State.reset with after := .cycle [.tick, .step], events := [.step] } := .inr (.inr (.inl ⟨[.step], rfl, rfl, rfl⟩))
theorem test_witness_free_event (k : Nat) :
    EventIsNext { State.reset with after := .free k } (Config.hostEvent k) { State.reset with after := .free (k + 1) } :=
  .inr (.inr (.inr ⟨k, rfl, rfl, rfl, rfl⟩))

theorem test_witness_O1 : (Instr.call0 0x0E1).wellFormed = true ∧ (Instr.drw 15 15 15).wellFormed = true := by decide
theorem test_witness_O2_shift : decodeWord 0x8FF6 = some (.shr 15) ∧ decodeWord 0x800E = some (.shl 0) := by decide
theorem test_witness_O2_other : decodeWord 0xFF65 = some (.ldVxMi 15) := by decide
theorem test_witness_O3_each_family :
    ([0x5001, 0x5FFF, 0x8008, 0x8FFD, 0x8FFF, 0x9001, 0x9FFF, 0xE000, 0xEFFF, 0xF000, 0xFFFF] : List Word).all
      (fun w => (decodeWord w).isNone) = true := by decide
theorem test_witness_O4 : ∃ r ∈ opcodeTable, r.selects 0x00E0 = true := ⟨Instr.cls.row, by decide, by decide⟩
theorem test_witness_O6 :
    (placed 0xFFE 0x1200).halt = none ∧ (placed 0xFFE 0x1200).pc.toNat ≤ 0xFFE ∧
    decodeWord (fetched (placed 0xFFE 0x1200)) = some (.jp 0x200) ∧
    (scheduled 0x000 0x00E0).halt = none ∧ decodeWord (fetched (scheduled 0x000 0x00E0)) = some .cls := by decide
theorem test_witness_O7 :
    ([0xFFF, 0x1000, 0xFFFF] : List Word).all
      (fun a => (placed a 0).halt.isNone && decide (0xFFF ≤ (placed a 0).pc.toNat)) = true := by decide
theorem test_witness_O8 :
    (placed 0xFFE 0x5001).halt = none ∧ (placed 0xFFE 0x5001).pc.toNat ≤ 0xFFE ∧
    decodeWord (fetched (placed 0xFFE 0x5001)) = none := by decide
theorem test_witness_O9 : StepIsNext stopped stopped ∧ stopped.halt = some ⟨.stackUnderflow, some 0x00EE, 0x0200⟩ :=
  ⟨.inr (.inl ⟨rfl, rfl, rfl, rfl⟩), rfl⟩
theorem test_witness_O10 :
    (scheduled 0xFFE 0x5001).halt = none ∧ ∀ font p s', ¬ EventIsNext (scheduled 0xFFE 0x5001) (.boot font p) s' := by
  refine ⟨rfl, fun font p s' h => ?_⟩
  rcases h with ⟨es, h, _⟩ | ⟨h, _⟩ | ⟨es, h, _⟩ | ⟨k, h, _⟩ <;> cases h
theorem test_witness_O11_stack :
    raises State.reset .ret = some .stackUnderflow ∧ raises { State.reset with sp := 1 } .ret = none ∧
    raises { State.reset with sp := 15 } (.call 0) = some .stackOverflow ∧
    raises { State.reset with sp := 15 } (.call0 0) = some .stackOverflow ∧
    raises { State.reset with sp := 14 } (.call 0) = none := by decide
theorem test_witness_O11_bounds :
    raises { State.reset with i := 0xFF1 } (.drw 0 0 15) = none ∧
    raises { State.reset with i := 0xFF2 } (.drw 0 0 15) = some .outOfBounds ∧
    raises { State.reset with i := 0xFFFF } (.drw 0 0 0) = none ∧
    raises { State.reset with i := 0xFFD } (.ldBVx 0) = none ∧
    raises { State.reset with i := 0xFFE } (.ldBVx 0) = some .outOfBounds ∧
    raises { State.reset with i := 0xFF0 } (.ldMiVx 15) = none ∧
    raises { State.reset with i := 0xFF1 } (.ldVxMi 15) = some .outOfBounds ∧
    raises { State.reset with i := 0xFFFF } (.cls) = none := by decide
/-- Stores that end with memory over the word at 0xFFE: from a lower I, from PC itself, and over its second byte only. -/
theorem test_witness_O12 :
    ({ State.reset with pc := 0xFFE, i := 0xFF0 } : State).mem.wf = true ∧ (0xFFE : Word).toNat ≤ 0xFFE ∧
    (0xFF0 : Word).toNat + ((15 : RegIdx).val + 1) ≤ 0x1000 ∧ (0xFFE : Word).toNat + ((1 : RegIdx).val + 1) ≤ 0x1000 ∧
    (0xFFF : Word).toNat + ((0 : RegIdx).val + 1) ≤ 0x1000 ∧ (0xFFD : Word).toNat + 3 ≤ 0x1000 := by decide
/-- The clauses' two sides: a covered byte and an uncovered one (`I = 0xFFF`, x = 0, `PC = 0xFFE`). -/
theorem test_witness_O12_one_byte :
    After (exec (.ldMiVx 0) { regs [(0, 0x77)] with pc := 0xFFE, i := 0xFFF }) (fun t => fetched t == 0x0077) = true ∧
    After (exec (.ldBVx 0) { regs [(0, 234)] with pc := 0xFFE, i := 0xFFD }) (fun t => fetched t == 0x0304) = true := by
  decide
theorem test_witness_O13 :
    (placed 0xFFE 0x1FFE).halt = none ∧ (placed 0xFFE 0x1FFE).pc.toNat = (0xFFE : Addr12).toNat ∧
    fetched (placed 0xFFE 0x1FFE) = encode (.jp 0xFFE) := by decide
theorem test_witness_O20 : inSubroutine.sp ≠ 0 ∧ ({ State.reset with sp := 15 } : State).sp ≠ 0 ∧ State.reset.sp = 0 := by
  decide
theorem test_witness_O21_O22_O23 : ({ State.reset with sp := 14 } : State).sp ≠ 15 ∧ ({ State.reset with sp := 15 } : State).sp = 15 := by
  decide
theorem test_witness_O26 : ({ State.reset with i := 0xFFD } : State).mem.wf = true ∧ (0xFFD : Word).toNat + 3 ≤ 0x1000 := by
  decide
theorem test_witness_O27_O28 :
    ({ State.reset with i := 0xFF0 } : State).mem.wf = true ∧ (0xFF0 : Word).toNat + ((15 : RegIdx).val + 1) ≤ 0x1000 ∧
    (0xFFF : Word).toNat + ((0 : RegIdx).val + 1) ≤ 0x1000 := by decide
theorem test_witness_O29_O30_ranges :
    ({ State.reset with i := 0xFF1 } : State).mem.wf = true ∧ 0x1000 < (0xFF1 : Word).toNat + ((15 : RegIdx).val + 1) ∧
    0x1000 < (0x1000 : Word).toNat + ((0 : RegIdx).val + 1) := by decide
theorem test_witness_O29_digits :
    0x1000 < (0xFFE : Word).toNat + 3 ∧ 0x1000 < (0xFFF : Word).toNat + 3 ∧ 0x1000 < (0x1000 : Word).toNat + 3 := by decide
theorem test_witness_O32_O33 :
    InBounds { State.reset with i := 0xFF1 } 15 ∧ InBounds { State.reset with i := 0xFFFF } 0 :=
  ⟨.inr (by decide), .inl rfl⟩
theorem test_witness_O33_clear_screen : ∀ row col, State.reset.pixel row col = false := Framebuffer.cell_clear
theorem test_witness_O34 :
    ¬ InBounds { State.reset with i := 0xFF2 } 15 ∧ ¬ InBounds { State.reset with i := 0x1000 } 1 := by
  constructor <;> rintro (h | h) <;> revert h <;> decide
theorem test_witness_O36_match :
    ∃ k : KeyNumber, ({ regs [(2, 15)] with key := some 15 } : State).key = some k ∧
      k.val = ((regs [(2, 15)]).getV 2).toNat := ⟨15, rfl, by decide⟩
/-- An empty latch, and a register value above 15 with the same low digit. -/
theorem test_witness_O36_no_match :
    (∀ k, State.reset.key = some k → k.val ≠ (State.reset.getV 2).toNat) ∧
    (∀ k, ({ regs [(2, 0x17)] with key := some 7 } : State).key = some k → k.val ≠ ((regs [(2, 0x17)]).getV 2).toNat) := by
  constructor
  · intro k h; cases h
  · intro k h; cases h; decide
theorem test_witness_O37 : ({ State.reset with key := some 15 } : State).key = some 15 := rfl
theorem test_witness_O38 :
    (placed 0xFFE 0xFF0A).halt = none ∧ (placed 0xFFE 0xFF0A).pc.toNat ≤ 0xFFE ∧
    fetched (placed 0xFFE 0xFF0A) = encode (.ldVxK 15) ∧ (placed 0xFFE 0xFF0A).key = none := by decide
theorem test_witness_O41 :
    EventIsNext { stopped with events := [.tick] } .tick { stopped with events := [] } ∧
    EventIsNext { State.reset with events := [.setKey none] } (.setKey none) { State.reset with events := [] } ∧
    ({ State.reset with events := [.setKey (some 3), .setKey (some 15)] } : State).events =
      .setKey (some 3) :: .setKey (some 15) :: [] := ⟨.inl ⟨[], rfl, rfl⟩, .inl ⟨[], rfl, rfl⟩, rfl⟩
theorem test_witness_O42 (p : List Byte) :
    EventIsNext { stopped with events := [.boot otherFont p] } (.boot otherFont p) { stopped with events := [] } ∧
    (List.replicate 0xE00 (1 : Byte)).length ≤ 0xE00 ∧ 0xE00 < (List.replicate 0xE01 (1 : Byte)).length :=
  ⟨.inl ⟨[], rfl, rfl⟩, (List.length_replicate).le,
    (List.length_replicate (n := 0xE01) (a := (1 : Byte))).symm ▸ by omega⟩
theorem test_witness_O44 : State.reset.Inv ∧ ∃ t, step State.reset = .next t :=
  ⟨⟨by decide, by decide, by decide, by decide⟩, _, rfl⟩

/-- Each piece is changed by one of its writers. -/
theorem test_witness_O46 :
    After (exec (.ldVxNn 15 1) State.reset) (fun t => t.getV 15 != 0) = true ∧
    After (exec (.ldVxK 0) State.reset) (fun t => t.pc != State.reset.pc) = true ∧
    After (exec .ret State.reset) (fun t => t.halt != none) = true ∧
    After (exec (.ldINnn 1) State.reset) (fun t => t.i != State.reset.i) = true ∧
    After (exec (.call 0) State.reset) (fun t => t.stack.get 0 != State.reset.stack.get 0 && t.sp != 0) = true ∧
    After (exec (.ldDtVx 0) (regs [(0, 1)])) (fun t => t.dt != 0) = true ∧
    After (exec (.ldStVx 0) (regs [(0, 1)])) (fun t => t.st != 0) = true ∧
    After (exec (.skp 0) { State.reset with key := some 0 }) (fun t => t.key != some 0) = true ∧
    After (exec (.ldBVx 0) { regs [(0, 255)] with i := 0xFFD }) (fun t => t.mem.read 0xFFF != State.reset.mem.read 0xFFF) = true ∧
    After (exec .cls lit) (fun t => t.fb.cell 0 0 != lit.fb.cell 0 0) = true ∧
    After (exec (.rnd 0 0) State.reset) (fun t => t.rndCount != 0) = true := by decide
theorem test_witness_O48 : (∀ x y n, Instr.cls ≠ .drw x y n) ∧ (∀ x y n, Instr.skp 0 ≠ .drw x y n) := by
  constructor <;> intro x y n h <;> cases h

/-- A machine that loops on a jump to 0xFFE, under a host that raises `step` and `tick` in turn for ever. -/
def looping : State := { placed 0xFFE 0x1FFE with after := .cycle [.step, .tick], dt := 0xFF }

theorem test_witness_O49_loop :
    looping.events = [] ∧ looping.after = .cycle [.step, .tick] ∧ looping.halt = none ∧ looping.pc.toNat ≤ 0xFFE ∧
    looping.pc.toNat = (0xFFE : Addr12).toNat ∧ fetched looping = encode (.jp 0xFFE) := by decide
theorem test_witness_O49_ticks :
    ({ stopped with after := .cycle [.tick] } : State).events = [] ∧
    ({ stopped with after := .cycle [.tick] } : State).after = .cycle [.tick] := ⟨rfl, rfl⟩

end Sys2Proof.Tests
end

section
/-! Control transfer: the four register skips (R128 to R132). -/

namespace Sys2Proof.Machine

open Sys2Proof.Claim

/-! ## Loading `PC` -/

/-- The frame of every control transfer that only loads `PC`. -/
theorem unchangedBut_setPC (s : State) (w : Word) : UnchangedBut [.pc] s (s.setPC w) := by
  intro p hp
  cases p
  case pc => exact absurd (List.mem_singleton_self _) hp
  all_goals simp [Same]

/-! ## Skips (R132) -/

theorem unchangedBut_skipIf (c : Bool) (s : State) : UnchangedBut [.pc] s (skipIf c s) := by
  rw [skipIf_eq]
  exact unchangedBut_setPC s _

theorem toNat_pc_skipIf (c : Bool) (s : State) :
    (skipIf c s).pc.toNat = if c then (s.pc.toNat + 2) % 65536 else s.pc.toNat := by
  rw [skipIf_eq, State.setPC_pc]
  cases c
  case false => rfl
  case true => simp [BitVec.toNat_add]

theorem exec_seVxNn (x : RegIdx) (nn : Byte) (s : State) :
    exec (.seVxNn x nn) s = .next (skipIf (s.getV x == nn) s) := rfl

theorem exec_sneVxNn (x : RegIdx) (nn : Byte) (s : State) :
    exec (.sneVxNn x nn) s = .next (skipIf (s.getV x != nn) s) := rfl

theorem exec_seVxVy (x y : RegIdx) (s : State) :
    exec (.seVxVy x y) s = .next (skipIf (s.getV x == s.getV y) s) := rfl

theorem exec_sneVxVy (x y : RegIdx) (s : State) :
    exec (.sneVxVy x y) s = .next (skipIf (s.getV x != s.getV y) s) := rfl

/-- A skip on equal bytes, as the two SE instructions take it (R128, R130). -/
theorem toNat_pc_skipIf_beq (a b : Byte) (s : State) :
    (skipIf (a == b) s).pc.toNat = if a = b then (s.pc.toNat + 2) % 65536 else s.pc.toNat := by
  simp only [toNat_pc_skipIf, beq_iff_eq]

/-- A skip on different bytes, as the two SNE instructions take it (R129, R131). -/
theorem toNat_pc_skipIf_bne (a b : Byte) (s : State) :
    (skipIf (a != b) s).pc.toNat = if a = b then s.pc.toNat else (s.pc.toNat + 2) % 65536 := by
  simp only [toNat_pc_skipIf, bne_iff_ne, ne_eq, ite_not]

/-- Settles O19: each skip is `skipIf` on its own comparison of bytes. -/
theorem skipsAddTwoOnTheirCondition : Obligations.SkipsAddTwoOnTheirCondition := by
  intro x y nn s
  exact ⟨⟨_, exec_seVxNn x nn s, unchangedBut_skipIf _ s, toNat_pc_skipIf_beq _ _ s⟩,
    ⟨_, exec_sneVxNn x nn s, unchangedBut_skipIf _ s, toNat_pc_skipIf_bne _ _ s⟩,
    ⟨_, exec_seVxVy x y s, unchangedBut_skipIf _ s, toNat_pc_skipIf_beq _ _ s⟩,
    ⟨_, exec_sneVxVy x y s, unchangedBut_skipIf _ s, toNat_pc_skipIf_bne _ _ s⟩⟩

end Sys2Proof.Machine
end

section
/-! Register loads and the logic unit, and ADD with an immediate (R140 to R145). -/

namespace Sys2Proof.Machine

open Sys2Proof.Claim

/-! ## Writing one register -/

theorem State.getV_setV_self (s : State) (x : RegIdx) (b : Byte) : (s.setV x b).getV x = b := by
  rw [State.getV_setV, if_pos rfl]

theorem State.getV_setV_of_ne (s : State) {x r : RegIdx} (b : Byte) (h : r ≠ x) : (s.setV x b).getV r = s.getV r := by
  rw [State.getV_setV, if_neg h]

/-- The frame of every instruction that only writes registers. -/
theorem unchangedBut_setV (s : State) (x : RegIdx) (b : Byte) : UnchangedBut [.v] s (s.setV x b) := by
  intro p hp
  cases p
  case v => exact absurd (List.mem_singleton_self _) hp
  all_goals simp [Same]

/-- What a register write leaves: every other register (VF too, where it is not the one written), and the other pieces. -/
theorem setV_changesOnly (s : State) (x : RegIdx) (b : Byte) :
    (∀ r, r ≠ x → (s.setV x b).getV r = s.getV r) ∧ UnchangedBut [.v] s (s.setV x b) :=
  ⟨fun _ h => s.getV_setV_of_ne b h, unchangedBut_setV s x b⟩

/-! ## Each instruction is one register write -/

theorem exec_ldVxNn (x : RegIdx) (nn : Byte) (s : State) : exec (.ldVxNn x nn) s = .next (s.setV x nn) := rfl

theorem exec_addVxNn (x : RegIdx) (nn : Byte) (s : State) :
    exec (.addVxNn x nn) s = .next (s.setV x (s.getV x + nn)) := rfl

theorem exec_ldVxVy (x y : RegIdx) (s : State) : exec (.ldVxVy x y) s = .next (s.setV x (s.getV y)) := rfl

theorem exec_or (x y : RegIdx) (s : State) : exec (.or x y) s = .next (s.setV x (s.getV x ||| s.getV y)) := rfl

theorem exec_and (x y : RegIdx) (s : State) : exec (.and x y) s = .next (s.setV x (s.getV x &&& s.getV y)) := rfl

theorem exec_xor (x y : RegIdx) (s : State) : exec (.xor x y) s = .next (s.setV x (s.getV x ^^^ s.getV y)) := rfl

/-! ## The statements -/

/-- Settles O14: each of the five writes one register; the three logic operations act on every bit alone. -/
theorem loadsAndLogicWriteVxOnly : Obligations.LoadsAndLogicWriteVxOnly := by
  intro x y nn s
  refine ⟨⟨_, exec_ldVxNn x nn s, ?ldImmediate, setV_changesOnly s x _⟩,
    ⟨_, exec_ldVxVy x y s, ?ldRegister, setV_changesOnly s x _⟩,
    ⟨_, exec_or x y s, fun k _ => ?or, setV_changesOnly s x _⟩,
    ⟨_, exec_and x y s, fun k _ => ?and, setV_changesOnly s x _⟩,
    ⟨_, exec_xor x y s, fun k _ => ?xor, setV_changesOnly s x _⟩⟩
  case ldImmediate => exact s.getV_setV_self x nn
  case ldRegister => exact s.getV_setV_self x (s.getV y)
  case or => rw [State.getV_setV_self, BitVec.getLsbD_or]
  case and => rw [State.getV_setV_self, BitVec.getLsbD_and]
  case xor => rw [State.getV_setV_self, BitVec.getLsbD_xor]

/-- Settles O15: one register write of the 8-bit sum, which is the sum modulo 2^8. -/
theorem addImmediateWrapsWithoutFlag : Obligations.AddImmediateWrapsWithoutFlag := by
  intro x nn s
  refine ⟨_, exec_addVxNn x nn s, ?sum, setV_changesOnly s x _⟩
  case sum => rw [State.getV_setV_self, BitVec.toNat_add]

end Sys2Proof.Machine
end

section
/-! The index register: LD I and ADD I (R160, R162). -/

namespace Sys2Proof.Machine

open Sys2Proof.Claim

/-! ## Widened operands (R78) -/

@[simp] theorem toNat_zextAddr (nnn : Addr12) : (zextAddr nnn).toNat = nnn.toNat :=
  BitVec.toNat_setWidth_of_le (by decide)

@[simp] theorem toNat_zextByte (b : Byte) : (zextByte b).toNat = b.toNat :=
  BitVec.toNat_setWidth_of_le (by decide)

/-! ## Flags and frames -/

/-- The model's flag byte is the statements' `oneIf` (R32). -/
theorem flagByte_decide (c : Prop) [Decidable c] : flagByte (decide c) = oneIf c := by
  simp only [flagByte, oneIf, decide_eq_true_eq]

/-- One change after another leaves what neither of them touches. -/
theorem unchangedBut_trans {l m : List Part} {s t u : State} (hst : UnchangedBut l s t) (htu : UnchangedBut m t u) :
    UnchangedBut (l ++ m) s u := by
  intro p hp
  obtain ⟨hl, hm⟩ := not_or.mp (mt List.mem_append.mpr hp)
  have h₁ := hst p hl
  have h₂ := htu p hm
  cases p
  case v | stack | mem => exact fun k => (h₂ k).trans (h₁ k)
  case fb => exact fun row col => (h₂ row col).trans (h₁ row col)
  all_goals exact Eq.trans h₂ h₁

/-- The frame of every instruction that only writes `I`. -/
theorem unchangedBut_setI (s : State) (w : Word) : UnchangedBut [.i] s (s.setI w) := by
  intro p hp
  cases p
  case i => exact absurd (List.mem_singleton_self _) hp
  all_goals simp [Same]

/-! ## The instructions -/

theorem exec_ldINnn (nnn : Addr12) (s : State) : exec (.ldINnn nnn) s = .next (s.setI (zextAddr nnn)) := rfl

theorem exec_addIVx (x : RegIdx) (s : State) :
    exec (.addIVx x) s =
      .next ((s.setI (s.i + zextByte (s.getV x))).setVF (indexFlag (s.i + zextByte (s.getV x)))) := rfl

/-- Settles O24: LD I is one write of `I`; ADD I writes `I` and then VF, which tests the `I` just written. -/
theorem indexLoadAndAdd : Obligations.IndexLoadAndAdd := by
  intro x nnn s
  obtain ⟨hregs, hframe⟩ :=
    setV_changesOnly (s.setI (s.i + zextByte (s.getV x))) 15 (indexFlag (s.i + zextByte (s.getV x)))
  refine ⟨⟨_, exec_ldINnn nnn s, toNat_zextAddr nnn, unchangedBut_setI s _⟩,
    ⟨_, exec_addIVx x s, ?sum, ?flag, hregs, unchangedBut_trans (unchangedBut_setI s _) hframe⟩⟩
  case sum => rw [State.setVF_i, State.setI_i, BitVec.toNat_add, toNat_zextByte]
  case flag => rw [State.getV_setVF, if_pos rfl, State.setVF_i, State.setI_i, indexFlag, flagByte_decide]

end Sys2Proof.Machine
end

section
/-! The screen: CLS (R177). -/

namespace Sys2Proof.Machine

open Sys2Proof.Claim

/-! ## Replacing the framebuffer -/

@[simp] theorem State.pixel_setFB (s : State) (f : Framebuffer) (row : Fin 32) (col : Fin 64) :
    (s.setFB f).pixel row col = f.cell row col := rfl

/-- The frame of every instruction that only writes the screen. -/
theorem unchangedBut_setFB (s : State) (f : Framebuffer) : UnchangedBut [.fb] s (s.setFB f) := by
  intro p hp
  cases p
  case fb => exact absurd (List.mem_singleton_self _) hp
  all_goals simp [Same]

/-! ## The instruction -/

theorem exec_cls (s : State) : exec .cls s = .next (s.setFB Framebuffer.clear) := rfl

/-- Settles O31: CLS replaces the framebuffer by the clear one, whose every cell is off. -/
theorem clearScreenTurnsEveryCellOff : Obligations.ClearScreenTurnsEveryCellOff := by
  intro s
  refine ⟨_, exec_cls s, fun row col => ?cell, unchangedBut_setFB s Framebuffer.clear⟩
  case cell => rw [State.pixel_setFB, Framebuffer.cell_clear]

end Sys2Proof.Machine
end

section
/-! The timers: what `k` ticks do (R226). -/

namespace Sys2Proof.Machine

open Sys2Proof.Claim

/-! ## Frames -/

/-- Every state agrees with itself on every piece. -/
theorem unchangedBut_refl (l : List Part) (s : State) : UnchangedBut l s s := by
  intro p _
  cases p
  all_goals simp [Same]

/-- A change that keeps to a frame keeps to it however often it is made. -/
theorem unchangedBut_iterate {l : List Part} {f : State → State} (hf : ∀ s, UnchangedBut l s (f s)) (k : Nat)
    (s : State) : UnchangedBut l s (f^[k] s) := by
  induction k generalizing s with
  | zero => exact unchangedBut_refl l s
  | succ k ih =>
    rw [Function.iterate_succ_apply]
    intro p hp
    exact unchangedBut_trans (hf s) (ih (f s)) p (by simpa using hp)

/-- The frame of one tick. -/
theorem unchangedBut_tick (s : State) : UnchangedBut [.dt, .st] s s.tick := by
  intro p hp
  cases p
  case dt | st => simp at hp
  all_goals simp [Same]

/-! ## The count -/

/-- Counting down is the predecessor of the natural numbers, whose floor is 0 too. -/
@[simp] theorem toNat_countDown (b : Byte) : (countDown b).toNat = b.toNat - 1 := by
  unfold countDown
  split
  case isTrue hzero => simp [hzero]
  case isFalse hpos => bv_omega

/-- Whatever a tick counts down by one, floor 0, `k` ticks count down by `k`, floor 0. -/
theorem iterate_tick_count {timer : State → Byte} (htick : ∀ s : State, timer s.tick = countDown (timer s)) (k : Nat)
    (s : State) : (timer (State.tick^[k] s)).toNat = (timer s).toNat - k := by
  have hpred : Function.Semiconj (fun s => (timer s).toNat) State.tick Nat.pred := fun s => by
    simp only [htick, toNat_countDown, Nat.pred_eq_sub_one]
  rw [← Nat.pred_iterate]
  exact hpred.iterate_right k s

/-- Settles O40: a tick counts each timer down on its own and keeps to its frame; both facts iterate. -/
theorem ticksCountBothTimersDownToZero : Obligations.TicksCountBothTimersDownToZero := by
  intro k s
  exact ⟨iterate_tick_count State.tick_dt k s, iterate_tick_count State.tick_st k s,
    unchangedBut_iterate unchangedBut_tick k s⟩

end Sys2Proof.Machine
end

section
/-! The decoder and the encoder: each undoes the other, the words that decode to nothing, and the rows of the opcode
table (R79, R80, R83, R84, R90, R92). -/

namespace Sys2Proof

/-! ## Decoding what the encoder writes -/

/-- Decoding a word through its two bytes, whatever follows them (R51, R75). -/
theorem decode_bytes_of_decodeWord {w : Word} {i : Instr} (h : decodeWord w = some i) (rest : List Byte) :
    decode (highByte w :: lowByte w :: rest) = .ok (i, rest) := by
  rw [decode, wordOfBytes_highByte_lowByte, h]

/-- The two targets CALL0 cannot have are exactly those whose words are CLS and RET (R90). -/
theorem decodeFamily0_formatA {nnn : Addr12} (h : (Instr.call0 nnn).wellFormed = true) :
    decodeFamily0 (formatA 0x0 nnn) = .call0 nnn := by
  obtain ⟨hcls, hret⟩ : nnn ≠ 0x0E0 ∧ nnn ≠ 0x0EE := by simpa [Instr.wellFormed] using h
  have hne : ∀ a : Addr12, nnn ≠ a → formatA 0x0 nnn ≠ formatA 0x0 a := fun a ha he =>
    ha (by rw [← fieldNNN_formatA 0x0 nnn, he, fieldNNN_formatA])
  have hwcls : formatA 0x0 nnn ≠ 0x00E0 := hne 0x0E0 hcls
  have hwret : formatA 0x0 nnn ≠ 0x00EE := hne 0x0EE hret
  rw [decodeFamily0, if_neg hwcls, if_neg hwret, fieldNNN_formatA]

/-- The word of a well-formed instruction decodes to it: its opcode nibble gives the family, and there its selector. -/
theorem decodeWord_encode (i : Instr) (h : i.wellFormed = true) : decodeWord (encode i) = some i := by
  cases i
  case cls | ret => decide
  case call0 nnn => exact (decodeWord_0 (fieldN3_formatA _ _)).trans (congrArg some (decodeFamily0_formatA h))
  case jp nnn => exact (decodeWord_1 (fieldN3_formatA _ _)).trans (by rw [fieldNNN_formatA])
  case call => simp [encode, decodeWord_2]
  case seVxNn => simp [encode, decodeWord_3]
  case sneVxNn => simp [encode, decodeWord_4]
  case seVxVy => simp [encode, decodeWord_5]
  case ldVxNn => simp [encode, decodeWord_6]
  case addVxNn => simp [encode, decodeWord_7]
  case ldVxVy | or | and | xor | addVxVy | sub | shr | subn | shl => simp [encode, decodeWord_8, decodeFamily8]
  case sneVxVy => simp [encode, decodeWord_9]
  case ldINnn => simp [encode, decodeWord_A]
  case jpV0 => simp [encode, decodeWord_B]
  case rnd => simp [encode, decodeWord_C]
  case drw => simp [encode, decodeWord_D]
  case skp | sknp => simp [encode, decodeWord_E, decodeFamilyE]
  case ldVxDt | ldVxK | ldDtVx | ldStVx | addIVx | ldFVx | ldBVx | ldMiVx | ldVxMi =>
    simp [encode, decodeWord_F, decodeFamilyF]

/-- Settles O1: the two bytes join to the encoded word, and that word decodes to the instruction. -/
theorem decodeOfEncodeGivesTheInstruction : Obligations.DecodeOfEncodeGivesTheInstruction := by
  intro i rest hwf
  exact decode_bytes_of_decodeWord (decodeWord_encode i hwf) rest

/-- Settles O5: the words are twenty-three literals, and the decoder runs on each. -/
theorem sampleWordsDecode : Obligations.SampleWordsDecode := by
  unfold Obligations.SampleWordsDecode
  decide

end Sys2Proof
end

section
/-! What the decoder reads from a word, read back by the encoder and by the rows of the opcode table (R83, R84, R90,
R92). -/

namespace Sys2Proof

variable {op : Word} {i : Instr}

/-! ## Encoding what was decoded -/

/-- `i` is a well-formed instruction without don't-care bits, and `op` is its word. -/
def EncodesTo (i : Instr) (op : Word) : Prop :=
  i.wellFormed = true ∧ (∀ x, i ≠ .shr x ∧ i ≠ .shl x) ∧ encode i = op

/-- `i` is a shift, and its word is `op` with the don't-care nibble written 0 (R84, R90). -/
def ShiftEncodesTo (i : Instr) (op : Word) : Prop := (∃ x, i = .shr x ∨ i = .shl x) ∧ encode i = op &&& 0xFF0F

theorem and_FF0F_toNat (w : Word) : (w &&& 0xFF0F).toNat = w.toNat / 256 * 256 + w.toNat % 16 := by
  have h : w &&& (0xFF0F : Word) = ((w >>> 8) <<< 8 : Word) + (w &&& 0x000F) := by
    rw [BitVec.add_eq_or_of_and_eq_zero] <;> (ext k hk; interval_cases k <;> simp)
  have hlow : (w &&& 0x000F).toNat = w.toNat % 16 := and_low_toNat w 4 (by omega)
  rw [h, BitVec.toNat_add, hlow, BitVec.toNat_shiftLeft, BitVec.toNat_ushiftRight, Nat.shiftLeft_eq,
    Nat.shiftRight_eq_div_pow]
  omega

/-- The shifts: a word with the selector `n` and its `y` field written 0. -/
theorem formatXY_zero_of_selector {n3 : BitVec 4} {n : Fin 16} (h3 : fieldN3 op = n3.toFin) (hn : fieldN op = n) :
    formatXY n3 (fieldX op) 0 n = op &&& 0xFF0F := by
  replace h3 := congrArg Fin.val h3
  rw [fieldN3_val, BitVec.val_toFin] at h3
  subst hn
  apply BitVec.eq_of_toNat_eq
  rw [and_FF0F_toNat, formatXY_toNat, fieldX_val, fieldN_val, Fin.val_zero]
  have := op.isLt
  omega

/-- Family 0: the whole word tells CLS and RET from CALL0 (R82). -/
theorem encodesTo_decodeFamily0 (h3 : fieldN3 op = 0x0) : EncodesTo (decodeFamily0 op) op := by
  have hop : formatA 0x0 (fieldNNN op) = op := formatA_of_fields h3
  unfold decodeFamily0
  split_ifs with hcls hret
  · exact ⟨rfl, by simp, hcls.symm⟩
  · exact ⟨rfl, by simp, hret.symm⟩
  · have hne : ∀ a : Addr12, op ≠ formatA 0x0 a → fieldNNN op ≠ a := fun a ha he => ha (by rw [← hop, he])
    refine ⟨?_, by simp, hop⟩
    simp only [Instr.wellFormed, Bool.and_eq_true, bne_iff_ne]
    exact ⟨hne 0x0E0 hcls, hne 0x0EE hret⟩

/-- Families 5 and 9, and 8 but for its shifts: a word with the selector `n` is put together from `x`, `y` and `n`. -/
theorem formatXY_of_selector {n3 : BitVec 4} {n : Fin 16} (h3 : fieldN3 op = n3.toFin) (hn : fieldN op = n) :
    formatXY n3 (fieldX op) (fieldY op) n = op := hn ▸ formatXY_of_fields h3

/-- Families E and F: a word with the selector `nn` is put together from `x` and `nn`. -/
theorem formatX_of_selector {n3 : BitVec 4} {nn : Byte} (h3 : fieldN3 op = n3.toFin) (hnn : fieldNN op = nn) :
    formatX n3 (fieldX op) nn = op := hnn ▸ formatX_of_fields h3

theorem encodesTo_decodeFamily8 (h3 : fieldN3 op = 0x8) (h : decodeFamily8 op = some i) :
    EncodesTo i op ∨ ShiftEncodesTo i op := by
  unfold decodeFamily8 at h
  split at h
  case h_7 hn => cases h; exact .inr ⟨⟨_, .inl rfl⟩, formatXY_zero_of_selector h3 hn⟩
  case h_9 hn => cases h; exact .inr ⟨⟨_, .inr rfl⟩, formatXY_zero_of_selector h3 hn⟩
  case h_10 => cases h
  all_goals cases h; exact .inl ⟨rfl, by simp, formatXY_of_selector h3 ‹_›⟩

theorem encodesTo_decodeFamilyE (h3 : fieldN3 op = 0xE) (h : decodeFamilyE op = some i) : EncodesTo i op := by
  unfold decodeFamilyE at h
  split_ifs at h
  all_goals cases h; exact ⟨rfl, by simp, formatX_of_selector h3 ‹_›⟩

theorem encodesTo_decodeFamilyF (h3 : fieldN3 op = 0xF) (h : decodeFamilyF op = some i) : EncodesTo i op := by
  unfold decodeFamilyF at h
  split_ifs at h
  all_goals cases h; exact ⟨rfl, by simp, formatX_of_selector h3 ‹_›⟩

/-- Everything a decoded word can be: the word of its instruction, up to a shift's don't-care nibble. -/
theorem encodesTo_of_decodeWord (h : decodeWord op = some i) : EncodesTo i op ∨ ShiftEncodesTo i op := by
  rcases fieldN3_cases op with h3 | h3 | h3 | h3 | h3 | h3 | h3 | h3 | h3 | h3 | h3 | h3 | h3 | h3 | h3 | h3
  · rw [decodeWord_0 h3] at h; cases h; exact .inl (encodesTo_decodeFamily0 h3)
  · rw [decodeWord_1 h3] at h; cases h; exact .inl ⟨rfl, by simp, formatA_of_fields h3⟩
  · rw [decodeWord_2 h3] at h; cases h; exact .inl ⟨rfl, by simp, formatA_of_fields h3⟩
  · rw [decodeWord_3 h3] at h; cases h; exact .inl ⟨rfl, by simp, formatX_of_fields h3⟩
  · rw [decodeWord_4 h3] at h; cases h; exact .inl ⟨rfl, by simp, formatX_of_fields h3⟩
  · rw [decodeWord_5 h3] at h; split_ifs at h; cases h; exact .inl ⟨rfl, by simp, formatXY_of_selector h3 ‹_›⟩
  · rw [decodeWord_6 h3] at h; cases h; exact .inl ⟨rfl, by simp, formatX_of_fields h3⟩
  · rw [decodeWord_7 h3] at h; cases h; exact .inl ⟨rfl, by simp, formatX_of_fields h3⟩
  · rw [decodeWord_8 h3] at h; exact encodesTo_decodeFamily8 h3 h
  · rw [decodeWord_9 h3] at h; split_ifs at h; cases h; exact .inl ⟨rfl, by simp, formatXY_of_selector h3 ‹_›⟩
  · rw [decodeWord_A h3] at h; cases h; exact .inl ⟨rfl, by simp, formatA_of_fields h3⟩
  · rw [decodeWord_B h3] at h; cases h; exact .inl ⟨rfl, by simp, formatA_of_fields h3⟩
  · rw [decodeWord_C h3] at h; cases h; exact .inl ⟨rfl, by simp, formatX_of_fields h3⟩
  · rw [decodeWord_D h3] at h; cases h; exact .inl ⟨rfl, by simp, formatXY_of_fields h3⟩
  · rw [decodeWord_E h3] at h; exact .inl (encodesTo_decodeFamilyE h3 h)
  · rw [decodeWord_F h3] at h; exact .inl (encodesTo_decodeFamilyF h3 h)

/-- Settles O2: each family puts the fields it read back where they stood; only a shift drops one. -/
theorem encodeOfDecodedWordGivesTheWord : Obligations.EncodeOfDecodedWordGivesTheWord := by
  intro op i h
  rcases encodesTo_of_decodeWord h with ⟨hwf, hns, he⟩ | ⟨hs, he⟩
  · exact ⟨hwf, .inr ⟨hns, he⟩⟩
  · obtain ⟨x, rfl | rfl⟩ := id hs
    all_goals exact ⟨rfl, .inl ⟨hs, he⟩⟩

/-! ## The words that decode to nothing (R83) -/

theorem decodeFamily8_eq_none_iff :
    decodeFamily8 op = none ↔ op.toNat % 16 ∈ [0x8, 0x9, 0xA, 0xB, 0xC, 0xD, 0xF] := by
  rw [← fieldN_val, decodeFamily8]
  generalize fieldN op = n
  fin_cases n <;> simp

theorem decodeFamilyE_eq_none_iff : decodeFamilyE op = none ↔ op.toNat % 256 ∉ [0x9E, 0xA1] := by
  rw [← fieldNN_toNat]
  simp [decodeFamilyE, BitVec.toNat_eq, ite_eq_iff]

theorem decodeFamilyF_eq_none_iff :
    decodeFamilyF op = none ↔ op.toNat % 256 ∉ [0x07, 0x0A, 0x15, 0x18, 0x1E, 0x29, 0x33, 0x55, 0x65] := by
  rw [← fieldNN_toNat]
  simp [decodeFamilyF, BitVec.toNat_eq, ite_eq_iff]

theorem toNat_div_4096 (op : Word) : op.toNat / 4096 = (fieldN3 op).val := by
  have := op.isLt
  rw [fieldN3_val]
  omega

theorem fieldN_eq_zero_iff : fieldN op = 0 ↔ op.toNat % 16 = 0 := by
  rw [← fieldN_val, Fin.val_eq_zero_iff]

/-- Settles O3: eleven families decode every word, and each of the other five refuses by its own selector. -/
theorem invalidWordsAreTheListedOnes : Obligations.InvalidWordsAreTheListedOnes := by
  intro op
  rw [toNat_div_4096]
  rcases fieldN3_cases op with h3 | h3 | h3 | h3 | h3 | h3 | h3 | h3 | h3 | h3 | h3 | h3 | h3 | h3 | h3 | h3
  · simp [h3, decodeWord_0 h3]
  · simp [h3, decodeWord_1 h3]
  · simp [h3, decodeWord_2 h3]
  · simp [h3, decodeWord_3 h3]
  · simp [h3, decodeWord_4 h3]
  · simp [h3, decodeWord_5 h3, fieldN_eq_zero_iff]
  · simp [h3, decodeWord_6 h3]
  · simp [h3, decodeWord_7 h3]
  · simp [h3, decodeWord_8 h3, decodeFamily8_eq_none_iff]
  · simp [h3, decodeWord_9 h3, fieldN_eq_zero_iff]
  · simp [h3, decodeWord_A h3]
  · simp [h3, decodeWord_B h3]
  · simp [h3, decodeWord_C h3]
  · simp [h3, decodeWord_D h3]
  · simp [h3, decodeWord_E h3, decodeFamilyE_eq_none_iff]
  · simp [h3, decodeWord_F h3, decodeFamilyF_eq_none_iff]

/-! ## The rows of the opcode table (R92) -/

/-- A decoded word selects its instruction's row. -/
theorem selects_row_of_decodeWord (h : decodeWord op = some i) : i.row.selects op = true := by
  rcases encodesTo_of_decodeWord h with ⟨hwf, -, he⟩ | ⟨⟨x, hx⟩, he⟩
  · exact he ▸ Laws.TableRow.all i hwf
  · have hmask : encode i &&& 0xF00F = op &&& 0xF00F := by rw [he, BitVec.and_assoc]; rfl
    rcases hx with rfl | rfl
    all_goals
      refine Laws.TableRow.selects_of_and rfl (hmask.symm.trans (BitVec.eq_of_toNat_eq ?_))
      exact Laws.TableRow.formatXY_andSelector _ _ _ _

theorem and_mask_of_selects {r : OpcodeRow} (h : r.selects op = true) : op &&& r.mask = r.value ∧ op ∉ r.except := by
  simpa [OpcodeRow.selects] using h

/-! The fields a row fixes, by its mask. -/

theorem fieldN3_of_and_F000 {n3 : Fin 16} (h : op &&& 0xF000 = BitVec.ofNat 16 (n3.val * 4096)) : fieldN3 op = n3 := by
  have hv := and_F000_toNat op
  rw [h, BitVec.toNat_ofNat] at hv
  apply Fin.ext
  rw [fieldN3_val]
  omega

theorem fields_of_and_F00F {n3 n : Fin 16} (h : op &&& 0xF00F = BitVec.ofNat 16 (n3.val * 4096 + n.val)) :
    fieldN3 op = n3 ∧ fieldN op = n := by
  have hv := and_F00F_toNat op
  rw [h, BitVec.toNat_ofNat] at hv
  constructor
  · apply Fin.ext; rw [fieldN3_val]; omega
  · apply Fin.ext; rw [fieldN_val]; omega

theorem fields_of_and_F0FF {n3 : Fin 16} {nn : Byte}
    (h : op &&& 0xF0FF = BitVec.ofNat 16 (n3.val * 4096 + nn.toNat)) : fieldN3 op = n3 ∧ fieldNN op = nn := by
  have hv := and_F0FF_toNat op
  rw [h, BitVec.toNat_ofNat] at hv
  constructor
  · apply Fin.ext; rw [fieldN3_val]; omega
  · apply BitVec.eq_of_toNat_eq; rw [fieldNN_toNat]; omega

theorem decodeWord_of_and_F00F_8 (n : Fin 16) (h : op &&& 0xF00F = BitVec.ofNat 16 (0x8000 + n.val)) :
    decodeWord op = decodeFamily8 op ∧ fieldN op = n := by
  obtain ⟨h3, hn⟩ := fields_of_and_F00F (n3 := 0x8) h
  exact ⟨decodeWord_8 h3, hn⟩

theorem decodeWord_of_and_F0FF_E (nn : Byte) (h : op &&& 0xF0FF = BitVec.ofNat 16 (0xE000 + nn.toNat)) :
    decodeWord op = decodeFamilyE op ∧ fieldNN op = nn := by
  obtain ⟨h3, hnn⟩ := fields_of_and_F0FF (n3 := 0xE) h
  exact ⟨decodeWord_E h3, hnn⟩

theorem decodeWord_of_and_F0FF_F (nn : Byte) (h : op &&& 0xF0FF = BitVec.ofNat 16 (0xF000 + nn.toNat)) :
    decodeWord op = decodeFamilyF op ∧ fieldNN op = nn := by
  obtain ⟨h3, hnn⟩ := fields_of_and_F0FF (n3 := 0xF) h
  exact ⟨decodeWord_F h3, hnn⟩

/-- A word that selects an instruction's row decodes to an instruction of that row. -/
theorem decodeWord_of_selects_row (i : Instr) (h : i.row.selects op = true) :
    (decodeWord op).map Instr.row = some i.row := by
  obtain ⟨hmask, hexcept⟩ := and_mask_of_selects h
  cases i
  case cls | ret =>
    have hop := (BitVec.and_allOnes (x := op)).symm.trans hmask
    rw [hop]; decide
  case call0 =>
    have hcls : ¬ op = 0x00E0 := fun he => hexcept (by simp [he, Instr.row])
    have hret : ¬ op = 0x00EE := fun he => hexcept (by simp [he, Instr.row])
    rw [decodeWord_0 (fieldN3_of_and_F000 hmask), decodeFamily0, if_neg hcls, if_neg hret]; rfl
  case jp => rw [decodeWord_1 (fieldN3_of_and_F000 hmask)]; rfl
  case call => rw [decodeWord_2 (fieldN3_of_and_F000 hmask)]; rfl
  case seVxNn => rw [decodeWord_3 (fieldN3_of_and_F000 hmask)]; rfl
  case sneVxNn => rw [decodeWord_4 (fieldN3_of_and_F000 hmask)]; rfl
  case ldVxNn => rw [decodeWord_6 (fieldN3_of_and_F000 hmask)]; rfl
  case addVxNn => rw [decodeWord_7 (fieldN3_of_and_F000 hmask)]; rfl
  case ldINnn => rw [decodeWord_A (fieldN3_of_and_F000 hmask)]; rfl
  case jpV0 => rw [decodeWord_B (fieldN3_of_and_F000 hmask)]; rfl
  case rnd => rw [decodeWord_C (fieldN3_of_and_F000 hmask)]; rfl
  case drw => rw [decodeWord_D (fieldN3_of_and_F000 hmask)]; rfl
  case seVxVy =>
    obtain ⟨h3, hn⟩ := fields_of_and_F00F (n3 := 0x5) (n := 0x0) hmask
    rw [decodeWord_5 h3, if_pos hn]; rfl
  case sneVxVy =>
    obtain ⟨h3, hn⟩ := fields_of_and_F00F (n3 := 0x9) (n := 0x0) hmask
    rw [decodeWord_9 h3, if_pos hn]; rfl
  case ldVxVy => simp [decodeWord_of_and_F00F_8 0x0 hmask, decodeFamily8, Instr.row]
  case or => simp [decodeWord_of_and_F00F_8 0x1 hmask, decodeFamily8, Instr.row]
  case and => simp [decodeWord_of_and_F00F_8 0x2 hmask, decodeFamily8, Instr.row]
  case xor => simp [decodeWord_of_and_F00F_8 0x3 hmask, decodeFamily8, Instr.row]
  case addVxVy => simp [decodeWord_of_and_F00F_8 0x4 hmask, decodeFamily8, Instr.row]
  case sub => simp [decodeWord_of_and_F00F_8 0x5 hmask, decodeFamily8, Instr.row]
  case shr => simp [decodeWord_of_and_F00F_8 0x6 hmask, decodeFamily8, Instr.row]
  case subn => simp [decodeWord_of_and_F00F_8 0x7 hmask, decodeFamily8, Instr.row]
  case shl => simp [decodeWord_of_and_F00F_8 0xE hmask, decodeFamily8, Instr.row]
  case skp => simp [decodeWord_of_and_F0FF_E 0x9E hmask, decodeFamilyE, Instr.row]
  case sknp => simp [decodeWord_of_and_F0FF_E 0xA1 hmask, decodeFamilyE, Instr.row]
  case ldVxDt => simp [decodeWord_of_and_F0FF_F 0x07 hmask, decodeFamilyF, Instr.row]
  case ldVxK => simp [decodeWord_of_and_F0FF_F 0x0A hmask, decodeFamilyF, Instr.row]
  case ldDtVx => simp [decodeWord_of_and_F0FF_F 0x15 hmask, decodeFamilyF, Instr.row]
  case ldStVx => simp [decodeWord_of_and_F0FF_F 0x18 hmask, decodeFamilyF, Instr.row]
  case addIVx => simp [decodeWord_of_and_F0FF_F 0x1E hmask, decodeFamilyF, Instr.row]
  case ldFVx => simp [decodeWord_of_and_F0FF_F 0x29 hmask, decodeFamilyF, Instr.row]
  case ldBVx => simp [decodeWord_of_and_F0FF_F 0x33 hmask, decodeFamilyF, Instr.row]
  case ldMiVx => simp [decodeWord_of_and_F0FF_F 0x55 hmask, decodeFamilyF, Instr.row]
  case ldVxMi => simp [decodeWord_of_and_F0FF_F 0x65 hmask, decodeFamilyF, Instr.row]

/-- Settles O4: the decoder and the table read the same fields of a word. -/
theorem wordSelectsRowExactlyWhenDecodedSo : Obligations.WordSelectsRowExactlyWhenDecodedSo := by
  intro op r hr
  obtain ⟨i, -, rfl⟩ := List.mem_map.mp hr
  constructor
  · exact fun hsel => Option.map_eq_some_iff.mp (decodeWord_of_selects_row i hsel)
  · rintro ⟨j, hj, hrow⟩
    exact hrow ▸ selects_row_of_decodeWord hj

end Sys2Proof
end

section
/-! The layer under the remaining statements: the frame of each operation on the state, the equation of each instruction
whose meaning is one such operation, and the host's next event. -/

namespace Sys2Proof.Machine

open Sys2Proof.Claim

/-! ## Frames -/

/-- A frame may be widened. -/
theorem unchangedBut_mono {l m : List Part} {s t : State} (h : UnchangedBut l s t) (hlm : l ⊆ m) : UnchangedBut m s t :=
  fun p hp => h p (fun hl => hp (hlm hl))

theorem unchangedBut_setDT (s : State) (b : Byte) : UnchangedBut [.dt] s (s.setDT b) := by
  intro p hp
  cases p
  case dt => simp at hp
  all_goals simp [Same]

theorem unchangedBut_setST (s : State) (b : Byte) : UnchangedBut [.st] s (s.setST b) := by
  intro p hp
  cases p
  case st => simp at hp
  all_goals simp [Same]

theorem unchangedBut_setKey (s : State) (k : Option KeyNumber) : UnchangedBut [.key] s (s.setKey k) := by
  intro p hp
  cases p
  case key => simp at hp
  all_goals simp [Same]

theorem unchangedBut_drawRandom (s : State) : UnchangedBut [.rndCount] s s.drawRandom := by
  intro p hp
  cases p
  case rndCount => simp at hp
  all_goals simp [Same]

/-- Taking a fatal condition touches HALT alone (R216, R219). -/
theorem unchangedBut_raise (s : State) (c : FatalCause) (o : Option Word) (a : Word) :
    UnchangedBut [.halt] s (s.raise c o a) := by
  intro p hp
  cases p
  case halt => simp at hp
  all_goals simp [Same]

theorem unchangedBut_pushed (s : State) (w : Word) : UnchangedBut [.stack, .sp] s (s.pushed w) := by
  intro p hp
  cases p
  case stack | sp => simp at hp
  all_goals simp [Same]

theorem unchangedBut_withSP (s : State) (k : Fin 16) : UnchangedBut [.sp] s { s with sp := k } := by
  intro p hp
  cases p
  case sp => simp at hp
  all_goals simp [Same, State.getV]

theorem unchangedBut_withMem (s : State) (m : Memory) : UnchangedBut [.mem] s { s with mem := m } := by
  intro p hp
  cases p
  case mem => simp at hp
  all_goals simp [Same]

theorem unchangedBut_withVector (s : State) (v : Vector Byte 16) : UnchangedBut [.v] s { s with v := v } := by
  intro p hp
  cases p
  case v => simp at hp
  all_goals simp [Same]

theorem unchangedBut_withHalt (s : State) (h : Option FaultRecord) : UnchangedBut [.halt] s { s with halt := h } := by
  intro p hp
  cases p
  case halt => simp at hp
  all_goals simp [Same, State.getV]

/-! ## The equations of the instructions: each meaning in the operations of the state -/

section equations

variable (x y : RegIdx) (nn : Byte) (nnn : Addr12) (n : Fin 16) (s : State)

theorem exec_addVxVy : exec (.addVxVy x y) s =
    .next ((s.setV x (s.getV y + s.getV x)).setV 15 (carryFlag (s.getV y) (s.getV x))) := rfl

theorem exec_sub : exec (.sub x y) s =
    .next ((s.setV x (s.getV x - s.getV y)).setV 15 (noBorrowFlag (s.getV x) (s.getV y))) := rfl

theorem exec_subn : exec (.subn x y) s =
    .next ((s.setV x (s.getV y - s.getV x)).setV 15 (noBorrowFlag (s.getV y) (s.getV x))) := rfl

theorem exec_shr : exec (.shr x) s = .next ((s.setV 15 (lowBitFlag (s.getV x))).setV x (s.getV x >>> 1)) := rfl

theorem exec_shl : exec (.shl x) s = .next ((s.setV 15 (highBitFlag (s.getV x))).setV x (s.getV x <<< 1)) := rfl

theorem exec_jp : exec (.jp nnn) s = .next (s.setPC (zextAddr nnn)) := rfl

theorem exec_jpV0 : exec (.jpV0 nnn) s = .next (s.setPC (s.pc + zextByte (s.getV 0) + zextAddr nnn)) := rfl

theorem exec_call0 : exec (.call0 nnn) s = callTo (encode (.call0 nnn)) nnn s := rfl

theorem exec_call : exec (.call nnn) s = callTo (encode (.call nnn)) nnn s := rfl

theorem exec_ldFVx : exec (.ldFVx x) s = .next (s.setI (glyphAddress (s.getV x))) := rfl

theorem exec_rnd : exec (.rnd x nn) s = .next (s.drawRandom.setV x (s.rndIn &&& nn)) := rfl

theorem exec_ldVxDt : exec (.ldVxDt x) s = .next (s.setV x s.dt) := rfl

theorem exec_ldDtVx : exec (.ldDtVx x) s = .next (s.setDT (s.getV x)) := rfl

theorem exec_ldStVx : exec (.ldStVx x) s = .next (s.setST (s.getV x)) := rfl

theorem exec_skp : exec (.skp x) s = .next ((skipIf (keyMatches s.key (s.getV x)) s).setKey none) := rfl

theorem exec_sknp : exec (.sknp x) s = .next ((skipIf (!keyMatches s.key (s.getV x)) s).setKey none) := rfl

/-- LD Vx, K without a key undoes the fetch advance (R196). -/
theorem exec_ldVxK_of_none (h : s.key = none) : exec (.ldVxK x) s = .next (s.setPC (s.pc - 2)) := by
  rw [exec, execLdVxK, h]

theorem exec_ldVxK_of_some {k : KeyNumber} (h : s.key = some k) :
    exec (.ldVxK x) s = .next ((s.setV x (keyByte k)).setKey none) := by
  rw [exec, execLdVxK, h]

/-- RET on an empty stack (R215). -/
theorem exec_ret_of_empty (h : s.sp = 0) :
    exec .ret s = .next (s.raise .stackUnderflow (some 0x00EE) (s.pc - 2)) := by
  rw [exec, execRet, pop, if_pos h]; rfl

theorem exec_ret_of_nonempty (h : s.sp ≠ 0) :
    exec .ret s = .next (({ s with sp := s.sp - 1 } : State).setPC (s.stack.get (s.sp - 1))) := by
  rw [exec, execRet, pop, if_neg h]

end equations

/-- A call below the greatest depth (R121, R124, R127). -/
theorem callTo_of_room {op : Word} {nnn : Addr12} {s : State} (h : s.sp ≠ 15) :
    callTo op nnn s = .next ((s.pushed s.pc).setPC (zextAddr nnn)) := by
  rcases callTo_cases op nnn s with ⟨-, e⟩ | ⟨hfull, -⟩
  · exact e
  · exact absurd hfull h

/-- A call at the greatest depth (R214). -/
theorem callTo_of_full {op : Word} {nnn : Addr12} {s : State} (h : s.sp = 15) :
    callTo op nnn s = .next (s.raise .stackOverflow (some op) (s.pc - 2)) := by
  rcases callTo_cases op nnn s with ⟨hroom, -⟩ | ⟨-, e⟩
  · exact absurd h hroom
  · exact e

/-- Both call instructions are `callTo` (R124, R127). -/
theorem exec_of_isCall {i : Instr} {nnn : Addr12} (h : i = .call0 nnn ∨ i = .call nnn) (s : State) :
    exec i s = callTo (encode i) nnn s := by
  rcases h with rfl | rfl
  · exact exec_call0 nnn s
  · exact exec_call nnn s

/-! ## The host's next event (R62, R100) -/

/-- The statements' next event is the one the model takes. -/
theorem eventIsNext_iff {s s' : State} {e : Event} : EventIsNext s e s' ↔ s.takeEvent = (e, s') := by
  constructor
  · rintro (⟨es, hes, rfl⟩ | ⟨hes, hafter, rfl, rfl⟩ | ⟨es, hes, hafter, rfl⟩ | ⟨k, hes, hafter, rfl, rfl⟩)
    all_goals simp only [State.takeEvent, *]
  · intro h
    unfold State.takeEvent at h
    split at h
    case h_1 e es hes => cases h; exact .inl ⟨es, hes, rfl⟩
    case h_2 hes =>
      split at h
      case h_1 hafter => cases h; exact .inr (.inl ⟨hes, hafter, rfl, rfl⟩)
      case h_2 e es hafter => cases h; exact .inr (.inr (.inl ⟨es, hes, hafter, rfl⟩))
      case h_3 k hafter => cases h; exact .inr (.inr (.inr ⟨k, hes, hafter, rfl, rfl⟩))

/-- A step performs the next event. -/
theorem step_of_eventIsNext {s s' : State} {e : Event} (h : EventIsNext s e s') : step s = s'.perform e :=
  nextEvent_of_takeEvent (eventIsNext_iff.mp h)

/-- Taking an event changes the schedule alone. -/
theorem frame_of_eventIsNext {s s' : State} {e : Event} (h : EventIsNext s e s') :
    ∃ es o, s' = { s with events := es, after := o } := by
  obtain ⟨es, o, hs⟩ := takeEvent_frame s
  exact ⟨es, o, by rw [← hs, eventIsNext_iff.mp h]⟩

theorem pc_of_eventIsNext {s s' : State} {e : Event} (h : EventIsNext s e s') : s'.pc = s.pc := by
  obtain ⟨es, o, rfl⟩ := frame_of_eventIsNext h
  rfl

theorem key_of_eventIsNext {s s' : State} {e : Event} (h : EventIsNext s e s') : s'.key = s.key := by
  obtain ⟨es, o, rfl⟩ := frame_of_eventIsNext h
  rfl

theorem step_of_stepIsNext {s s' : State} (h : StepIsNext s s') : step s = stepCpu s' := step_of_eventIsNext h

/-! ## The CPU's step (R101, R102) -/

/-- A CPU step that fetches a word is the fetch advance and then the execute phase of the word. -/
theorem stepCpu_of_fetched {s : State} (hhalt : s.halt = none) (hpc : s.pc.toNat ≤ 0xFFE) :
    stepCpu s = executeWord (fetched s) (s.setPC (s.pc + 2)) := by
  rw [stepCpu, hhalt, fetchWord_ok hpc]; rfl

theorem stepCpu_of_beyond {s : State} (hhalt : s.halt = none) (hpc : 0xFFE < s.pc.toNat) :
    stepCpu s = .next (s.raise .outOfBounds none (if s.pc = 0xFFF then 0x1000 else s.pc)) := by
  rw [stepCpu, hhalt, fetchWord_error hpc]

theorem executeWord_of_decodeWord {op : Word} {i : Instr} (h : decodeWord op = some i) (s : State) :
    executeWord op s = exec i s := by
  rw [executeWord, h]

/-- A step event is a CPU step of a state that differs in its schedule alone, so its fetch is the state's own. -/
theorem step_of_fetched {s s' : State} (hnext : StepIsNext s s') (hhalt : s.halt = none) (hpc : s.pc.toNat ≤ 0xFFE) :
    step s = executeWord (fetched s) (s'.setPC (s.pc + 2)) := by
  rw [step_of_stepIsNext hnext]
  obtain ⟨es, o, rfl⟩ := frame_of_eventIsNext hnext
  exact stepCpu_of_fetched hhalt hpc

end Sys2Proof.Machine
end

section
/-! One step of the CPU: what it runs, and where it cannot (R101 to R107). -/

namespace Sys2Proof.Machine

open Sys2Proof.Claim

/-- Settles O6: the fetched word is executed, and its execute phase is `exec` of what it decodes to. -/
theorem stepRunsTheDecodedInstruction : Obligations.StepRunsTheDecodedInstruction := by
  intro s s' i hnext hhalt hpc hdecode
  rw [step_of_fetched hnext hhalt hpc, executeWord_of_decodeWord hdecode]

/-- Settles O7: the fetch fails at `PC` or, from the last byte, at 0x1000. -/
theorem fetchBeyondMemoryRaisesOutOfBounds : Obligations.FetchBeyondMemoryRaisesOutOfBounds := by
  intro s s' hnext hhalt hpc
  have hlast : s.pc.toNat = 0xFFF ↔ s.pc = 0xFFF := BitVec.toNat_inj (y := 0xFFF)
  simp only [hlast]
  rw [step_of_stepIsNext hnext]
  obtain ⟨es, o, rfl⟩ := frame_of_eventIsNext hnext
  exact stepCpu_of_beyond hhalt hpc

/-- Settles O8: the address the word was fetched from is the advanced `PC` less 2. -/
theorem invalidWordRaisesInvalidOpcode : Obligations.InvalidWordRaisesInvalidOpcode := by
  intro s s' hnext hhalt hpc hinvalid
  have hfrom : (s'.setPC (s.pc + 2)).fetchedFrom = s.pc := BitVec.add_sub_cancel s.pc 2
  rw [step_of_fetched hnext hhalt hpc, executeWord, hinvalid]
  simp only [fatalHere, hfrom]
  rfl

/-- Settles O9: a step of the CPU looks at HALT before it fetches. -/
theorem haltedMachineExecutesNothing : Obligations.HaltedMachineExecutesNothing := by
  intro s s' r hnext hhalt
  rw [step_of_stepIsNext hnext]
  obtain ⟨es, o, rfl⟩ := frame_of_eventIsNext hnext
  rw [stepCpu, show State.halt _ = some r from hhalt]

/-- Loading `PC` with its own value changes nothing. -/
theorem State.setPC_setPC_self (s : State) (w : Word) : (s.setPC w).setPC s.pc = s := rfl

/-- Settles O13: the fetch advances `PC` and the jump loads it with the value it had. -/
theorem selfJumpChangesNothing : Obligations.SelfJumpChangesNothing := by
  intro s s' nnn hnext hhalt hpc htarget hword
  have hdecode : decodeWord (fetched s) = some (.jp nnn) := hword ▸ decodeWord_encode (.jp nnn) rfl
  have hzext : zextAddr nnn = s.pc := BitVec.eq_of_toNat_eq (by rw [toNat_zextAddr, htarget])
  rw [stepRunsTheDecodedInstruction s s' _ hnext hhalt hpc hdecode, exec_jp, hzext,
    ← pc_of_eventIsNext hnext, State.setPC_setPC_self]

/-- A machine at LD Vx, K with no key latched awaits a key (R36). -/
theorem awaitsKey_of_decodeWord {s : State} {x : RegIdx} (hhalt : s.halt = none) (hkey : s.key = none)
    (hpc : s.pc.toNat ≤ 0xFFE) (hdecode : decodeWord (fetched s) = some (.ldVxK x)) : s.awaitsKey = true := by
  have hfetch : fetchWord s = .ok (fetched s) := fetchWord_ok hpc
  rw [State.awaitsKey, hhalt, hkey, hfetch]
  simp only [hdecode]
  rfl

/-- Settles O38: LD Vx, K without a key undoes the fetch advance, and the state before it awaits a key. -/
theorem waitingStepChangesNothing : Obligations.WaitingStepChangesNothing := by
  intro x s s' hnext hhalt hpc hword hkey
  have hdecode : decodeWord (fetched s) = some (.ldVxK x) := hword ▸ decodeWord_encode (.ldVxK x) rfl
  constructor
  · have hkey' : (s'.setPC (s.pc + 2)).key = none := (key_of_eventIsNext hnext).trans hkey
    rw [stepRunsTheDecodedInstruction s s' _ hnext hhalt hpc hdecode, exec_ldVxK_of_none _ _ hkey', State.setPC_pc,
      BitVec.add_sub_cancel, ← pc_of_eventIsNext hnext, State.setPC_setPC_self]
  · rw [State.status, hhalt]
    simp only [awaitsKey_of_decodeWord hhalt hkey hpc hdecode, if_true]

end Sys2Proof.Machine
end

section
/-! The memory instructions: what a store and a load leave, and where they run beyond memory (R56, R161 to R167, R216). -/

namespace Sys2Proof.Machine

open Sys2Proof.Claim

/-! ## Stores -/

/-- The state after the bytes `bs` are stored from `I` on, those beyond memory left out. -/
def State.stored (s : State) (bs : List Byte) : State :=
  { s with mem := s.mem.writeBytes s.i.toNat (bs.take (0x1000 - s.i.toNat)) }

@[simp] theorem State.stored_pc (s : State) (bs : List Byte) : (s.stored bs).pc = s.pc := rfl

theorem storeBytes_of_fits {op : Word} {bs : List Byte} {s : State} (h : s.i.toNat + bs.length ≤ 0x1000) :
    storeBytes op bs (ea s.i 0) s = .next (s.stored bs) := by
  rw [ea_zero, storeBytes_eq, if_pos (.inr h)]; rfl

theorem storeBytes_of_beyond {op : Word} {bs : List Byte} {s : State} (hbs : bs ≠ [])
    (h : 0x1000 < s.i.toNat + bs.length) :
    storeBytes op bs (ea s.i 0) s = .next ((s.stored bs).raise .outOfBounds (some op) (firstBad s)) := by
  rw [ea_zero, storeBytes_eq, if_neg (not_or.mpr ⟨hbs, Nat.not_le.mpr h⟩)]; rfl

/-- A store answers a next state: the bytes stored, and an OutOfBounds raised if some did not fit. -/
theorem storeBytes_at_I (op : Word) {bs : List Byte} (hbs : bs ≠ []) (s : State) :
    (s.i.toNat + bs.length ≤ 0x1000 ∧ storeBytes op bs (ea s.i 0) s = .next (s.stored bs)) ∨
    (0x1000 < s.i.toNat + bs.length ∧
      storeBytes op bs (ea s.i 0) s = .next ((s.stored bs).raise .outOfBounds (some op) (firstBad s))) := by
  rcases Nat.lt_or_ge 0x1000 (s.i.toNat + bs.length) with h | h
  · exact .inr ⟨h, storeBytes_of_beyond hbs h⟩
  · exact .inl ⟨h, storeBytes_of_fits h⟩

theorem unchangedBut_stored (s : State) (bs : List Byte) : UnchangedBut [.mem] s (s.stored bs) :=
  unchangedBut_withMem s _

/-- A store keeps memory canonical, wherever `I` stands. -/
theorem wf_stored {s : State} (h : s.mem.wf = true) (bs : List Byte) : (s.stored bs).mem.wf = true := by
  rcases Nat.lt_or_ge 0x1000 s.i.toNat with hi | hi
  · rwa [State.stored, Nat.sub_eq_zero_of_le hi.le, List.take_zero, Memory.writeBytes]
  · refine Memory.wf_writeBytes ?_ h
    rw [List.length_take, Config.memSize]
    omega

/-- What each address reads after a store. -/
theorem read_stored {s : State} (h : s.mem.wf = true) (bs : List Byte) (a : Nat) :
    (s.stored bs).mem.read a =
      if s.i.toNat ≤ a ∧ a < s.i.toNat + bs.length ∧ a ≤ 0xFFF then bs.getD (a - s.i.toNat) 0 else s.mem.read a := by
  rcases Nat.lt_or_ge 0x1000 s.i.toNat with hi | hi
  · rw [State.stored, Nat.sub_eq_zero_of_le hi.le, List.take_zero, Memory.writeBytes, if_neg (by omega)]
  · have hlen : s.i.toNat + (bs.take (0x1000 - s.i.toNat)).length ≤ Config.memSize := by
      rw [List.length_take, Config.memSize]
      omega
    rw [State.stored, Memory.read_writeBytes a hlen h]
    have hiff : (s.i.toNat ≤ a ∧ a < s.i.toNat + (bs.take (0x1000 - s.i.toNat)).length) ↔
        (s.i.toNat ≤ a ∧ a < s.i.toNat + bs.length ∧ a ≤ 0xFFF) := by
      rw [List.length_take]
      omega
    simp only [hiff]
    split
    · rw [List.getD_eq_getElem?_getD, List.getD_eq_getElem?_getD, List.getElem?_take_of_lt (by omega)]
    · rfl

/-- An address the store does not cover reads as before. -/
theorem read_stored_of_not_covered {s : State} (h : s.mem.wf = true) {bs : List Byte} {a : Nat}
    (ha : ¬ (s.i.toNat ≤ a ∧ a < s.i.toNat + bs.length ∧ a ≤ 0xFFF)) : (s.stored bs).mem.read a = s.mem.read a := by
  rw [read_stored h, if_neg ha]

/-- The `k`-th byte stored stands at `I + k`. -/
theorem read_stored_at {s : State} (h : s.mem.wf = true) {bs : List Byte} {k : Nat} (hk : k < bs.length)
    (hfit : s.i.toNat + k ≤ 0xFFF) : (s.stored bs).mem.read (s.i.toNat + k) = bs.getD k 0 := by
  rw [read_stored h, if_pos ⟨by omega, by omega, hfit⟩, Nat.add_sub_cancel_left]

/-! ## The bytes stored -/

/-- The bytes LD [I], Vx stores: `V0..Vx` (R166). -/
def State.regBytes (s : State) (x : RegIdx) : List Byte := (regsUpTo x).map s.getV

@[simp] theorem State.length_regBytes (s : State) (x : RegIdx) : (s.regBytes x).length = x.val + 1 := by
  rw [State.regBytes, List.length_map, regsUpTo_length]

theorem State.regBytes_ne_nil (s : State) (x : RegIdx) : s.regBytes x ≠ [] :=
  List.ne_nil_of_length_pos (by rw [State.length_regBytes]; omega)

theorem State.getD_regBytes (s : State) {x k : RegIdx} (h : k ≤ x) : (s.regBytes x).getD k.val 0 = s.getV k := by
  have hlen : k.val < (regsUpTo x).length := by rw [regsUpTo_length]; exact Nat.lt_succ_of_le h
  have hreg : (regsUpTo x)[k.val] = k := Fin.ext (regsUpTo_getElem hlen)
  rw [List.getD_eq_getElem _ _ (by rwa [State.regBytes, List.length_map])]
  simp only [State.regBytes, List.getElem_map, hreg]

theorem toNat_ofNat_byte {n : Nat} (h : n < 256) : (BitVec.ofNat 8 n).toNat = n := by
  rw [BitVec.toNat_ofNat]
  exact Nat.mod_eq_of_lt h

/-- The three digits of a byte fit in bytes (R164). -/
theorem toNat_getD_bcdDigits (b : Byte) :
    ((bcdDigits b).getD 0 0).toNat = b.toNat / 100 ∧ ((bcdDigits b).getD 1 0).toNat = b.toNat / 10 % 10 ∧
    ((bcdDigits b).getD 2 0).toNat = b.toNat % 10 := by
  have hb := b.isLt
  exact ⟨toNat_ofNat_byte (by omega), toNat_ofNat_byte (by omega), toNat_ofNat_byte (by omega)⟩

section equations

variable (x : RegIdx) (s : State)

theorem exec_ldBVx : exec (.ldBVx x) s = storeBytes (encode (.ldBVx x)) (bcdDigits (s.getV x)) (ea s.i 0) s := rfl

theorem exec_ldMiVx : exec (.ldMiVx x) s = storeBytes (encode (.ldMiVx x)) (s.regBytes x) (ea s.i 0) s := rfl

theorem exec_ldBVx_of_fits (h : s.i.toNat + 3 ≤ 0x1000) :
    exec (.ldBVx x) s = .next (s.stored (bcdDigits (s.getV x))) :=
  (exec_ldBVx x s).trans (storeBytes_of_fits h)

theorem exec_ldMiVx_of_fits (h : s.i.toNat + (x.val + 1) ≤ 0x1000) :
    exec (.ldMiVx x) s = .next (s.stored (s.regBytes x)) :=
  (exec_ldMiVx x s).trans (storeBytes_of_fits (by rwa [State.length_regBytes]))

theorem exec_ldBVx_of_beyond (h : 0x1000 < s.i.toNat + 3) : exec (.ldBVx x) s =
    .next ((s.stored (bcdDigits (s.getV x))).raise .outOfBounds (some (encode (.ldBVx x))) (firstBad s)) :=
  (exec_ldBVx x s).trans (storeBytes_of_beyond (List.cons_ne_nil _ _) h)

theorem exec_ldMiVx_of_beyond (h : 0x1000 < s.i.toNat + (x.val + 1)) : exec (.ldMiVx x) s =
    .next ((s.stored (s.regBytes x)).raise .outOfBounds (some (encode (.ldMiVx x))) (firstBad s)) :=
  (exec_ldMiVx x s).trans (storeBytes_of_beyond (s.regBytes_ne_nil x) (by rwa [State.length_regBytes]))

/-- Everything LD Vx, [I] can do: the registers up to `x` whose byte exists are loaded (R167, R216). -/
theorem exec_ldVxMi : ∃ v, exec (.ldVxMi x) s = .next { s with
      v := v,
      halt := if s.i.toNat + (x.val + 1) ≤ 0x1000 then s.halt
        else some ⟨.outOfBounds, some (encode (.ldVxMi x)), firstBad s⟩ } ∧
    (∀ k : RegIdx, k ≤ x → s.i.toNat + k.val ≤ 0xFFF → v.get k = s.mem.read (s.i.toNat + k.val)) ∧
    (∀ k : RegIdx, x < k ∨ 0xFFF < s.i.toNat + k.val → v.get k = s.getV k) := by
  obtain ⟨v, hexec, hin, hout⟩ := loadRegs_eq (encode (.ldVxMi x)) (regsUpTo x) s.i s (regsUpTo_nodup x)
  have hne : regsUpTo x ≠ [] := List.ne_nil_of_length_pos (by rw [regsUpTo_length]; omega)
  simp only [hne, false_or, regsUpTo_length] at hexec
  refine ⟨v, ?exec, fun k hk hfit => ?loaded, fun k hk => hout k fun j hj hjk => ?kept⟩
  case exec => rw [exec, execLdVxMi, ea_zero, hexec]; rfl
  case loaded =>
    have hlen : k.val < (regsUpTo x).length := by rw [regsUpTo_length]; exact Nat.lt_succ_of_le hk
    have hreg : (regsUpTo x)[k.val] = k := Fin.ext (regsUpTo_getElem hlen)
    rw [← hin k.val hlen hfit, hreg]
  case kept =>
    have hval : j = k.val := by rw [← hjk, regsUpTo_getElem hj]
    rw [regsUpTo_length] at hj
    rcases hk with hk | hk
    · exact absurd (Fin.lt_def.mp hk) (by omega)
    · omega

end equations

/-! ## The statements -/

/-- Settles O26: the store fits, and its three bytes are the digits. -/
theorem storeBcdWritesThreeDigits : Obligations.StoreBcdWritesThreeDigits := by
  intro x s hwf hfit
  have hea : ∀ k < 3, (ea s.i k).toNat = s.i.toNat + k := fun k hk => ea_toNat (by omega)
  have hread : ∀ k < 3, (s.stored (bcdDigits (s.getV x))).mem.read (ea s.i k).toNat = (bcdDigits (s.getV x)).getD k 0 :=
    fun k hk => by rw [hea k hk, read_stored_at hwf hk (by omega)]
  obtain ⟨hhundreds, htens, hones⟩ := toNat_getD_bcdDigits (s.getV x)
  refine ⟨_, exec_ldBVx_of_fits x s hfit, ?_, ?_, ?_, fun a ha => read_stored_of_not_covered hwf ?_,
    unchangedBut_stored s _⟩
  · rw [hread 0 (by omega), hhundreds]
  · rw [hread 1 (by omega), htens]
  · rw [hread 2 (by omega), hones]
  · rintro ⟨hlo, hhi, -⟩
    have hk : a - s.i.toNat < 3 := by simp only [bcdDigits, List.length_cons, List.length_nil] at hhi; omega
    exact ha _ hk (by rw [hea _ hk]; omega)

/-- Settles O27: the store fits, and its `k`-th byte is `Vk`. -/
theorem storeRegistersWritesTheRange : Obligations.StoreRegistersWritesTheRange := by
  intro x s hwf hfit
  have hea : ∀ k : RegIdx, k ≤ x → (ea s.i k.val).toNat = s.i.toNat + k.val := fun k _ => ea_toNat (by omega)
  refine ⟨_, exec_ldMiVx_of_fits x s hfit, fun k hk => ?_, fun a ha => read_stored_of_not_covered hwf ?_,
    unchangedBut_stored s _⟩
  · have hk' : k.val ≤ x.val := hk
    rw [hea k hk, read_stored_at hwf (by rw [State.length_regBytes]; omega) (by omega), s.getD_regBytes hk]
  · rintro ⟨hlo, hhi, -⟩
    rw [State.length_regBytes] at hhi
    have hk : (⟨a - s.i.toNat, by omega⟩ : RegIdx) ≤ x := Fin.mk_le_of_le_val (by omega)
    exact ha _ hk (by rw [hea _ hk]; simp only; omega)

/-- Settles O28: every byte of the range exists, so every register up to `x` is loaded. -/
theorem loadRegistersReadsTheRange : Obligations.LoadRegistersReadsTheRange := by
  intro x s hfit
  obtain ⟨v, hexec, hloaded, hkept⟩ := exec_ldVxMi x s
  rw [if_pos hfit] at hexec
  refine ⟨_, hexec, fun k hk => ?_, fun k hk => hkept k (.inl hk), unchangedBut_withVector s v⟩
  have hk' : k.val ≤ x.val := hk
  rw [ea_toNat (by omega), ← hloaded k hk (by omega)]
  rfl

/-- Settles O29: the bytes that exist are stored before HALT receives the record, which leaves memory as it is. -/
theorem storeFaultKeepsEarlierBytes : Obligations.StoreFaultKeepsEarlierBytes := by
  intro x s hwf
  have hframe : ∀ (bs : List Byte) (c : FatalCause) (o : Option Word) (a : Word),
      UnchangedBut [.mem, .halt] s ((s.stored bs).raise c o a) := fun bs c o a =>
    unchangedBut_trans (unchangedBut_stored s bs) (unchangedBut_raise _ c o a)
  refine ⟨fun hbeyond => ⟨_, exec_ldMiVx_of_beyond x s hbeyond, rfl, fun k hk hfit => ?_, fun a ha => ?_, hframe _ _ _ _⟩,
    fun hbeyond => ⟨_, exec_ldBVx_of_beyond x s hbeyond, rfl, fun hfit => ?_, fun hi => ?_, fun a ha => ?_, hframe _ _ _ _⟩⟩
  · have hk' : k.val < x.val + 1 := Nat.lt_succ_of_le hk
    rw [State.raise_mem, read_stored_at hwf (by rwa [State.length_regBytes]) hfit, s.getD_regBytes hk]
  · refine read_stored_of_not_covered hwf ?_
    rintro ⟨hlo, hhi, hlast⟩
    rw [State.length_regBytes] at hhi
    exact ha ⟨a - s.i.toNat, by omega⟩ (Fin.mk_le_of_le_val (by omega)) (by simp only; omega) (by simp only; omega)
  · have hread := read_stored_at hwf (bs := bcdDigits (s.getV x)) (k := 0) (Nat.zero_lt_succ 2) hfit
    rw [State.raise_mem, ← (toNat_getD_bcdDigits (s.getV x)).1, ← hread, Nat.add_zero]
  · have hread := read_stored_at hwf (bs := bcdDigits (s.getV x)) (k := 1) (Nat.lt_add_left 1 Nat.one_lt_two) (by omega)
    rw [State.raise_mem, ← (toNat_getD_bcdDigits (s.getV x)).2.1, ← hread, hi]
  · exact read_stored_of_not_covered hwf (by omega)

/-- Settles O30: some byte of the range does not exist, and the registers before it are loaded. -/
theorem loadFaultKeepsEarlierRegisters : Obligations.LoadFaultKeepsEarlierRegisters := by
  intro x s hbeyond
  obtain ⟨v, hexec, hloaded, hkept⟩ := exec_ldVxMi x s
  rw [if_neg (Nat.not_le.mpr hbeyond)] at hexec
  exact ⟨_, hexec, rfl, hloaded, hkept, unchangedBut_trans (unchangedBut_withVector s v) (unchangedBut_withHalt _ _)⟩

/-- Settles O12: a fetch at `PC` reads the two addresses as the store left them. -/
theorem storeIsSeenByTheNextFetch : Obligations.StoreIsSeenByTheNextFetch := by
  intro x s hwf hpc
  refine ⟨fun hfit => ⟨_, exec_ldMiVx_of_fits x s hfit, rfl, ?_⟩, fun hfit => ⟨_, exec_ldBVx_of_fits x s hfit, rfl, ?_⟩⟩
  · have hbyte : ∀ a, (s.stored (s.regBytes x)).mem.read a =
        if s.i.toNat ≤ a ∧ a ≤ s.i.toNat + x.val then s.getV (Fin.ofNat 16 (a - s.i.toNat)) else s.mem.read a := by
      intro a
      split
      case isTrue h =>
        have hk : (⟨a - s.i.toNat, by omega⟩ : RegIdx) ≤ x := Fin.mk_le_of_le_val (by omega)
        have hreg : Fin.ofNat 16 (a - s.i.toNat) = (⟨a - s.i.toNat, by omega⟩ : RegIdx) :=
          Fin.ext (Nat.mod_eq_of_lt (by omega))
        rw [read_stored hwf, State.length_regBytes, if_pos (by omega), hreg, ← s.getD_regBytes hk]
      case isFalse h => exact read_stored_of_not_covered hwf (by rw [State.length_regBytes]; omega)
    simp only [fetched, hbyte, State.stored_pc]
  · have hbyte : ∀ a, (s.stored (bcdDigits (s.getV x))).mem.read a =
        if s.i.toNat ≤ a ∧ a < s.i.toNat + 3 then (decimalDigits (s.getV x)).getD (a - s.i.toNat) 0
        else s.mem.read a := by
      intro a
      split
      case isTrue h => exact (read_stored hwf _ a).trans (if_pos ⟨h.1, h.2, by omega⟩)
      case isFalse h => exact read_stored_of_not_covered hwf (fun hc => h ⟨hc.1, hc.2.1⟩)
    simp only [fetched, hbyte, State.stored_pc]

end Sys2Proof.Machine
end

section
/-! The sprite unit: what DRW leaves on every cell and what it reports (R176 to R180). -/

namespace Sys2Proof.Machine

open Sys2Proof.Claim

/-! ## The sprite's bytes and its bits on the cells -/

/-- The `n` bytes of the sprite at `MEM[I]` (R179). -/
def State.spriteBytes (s : State) (n : Nat) : List Byte := (List.range n).map fun k => s.mem.read (s.i.toNat + k)

@[simp] theorem State.length_spriteBytes (s : State) (n : Nat) : (s.spriteBytes n).length = n := by
  rw [State.spriteBytes, List.length_map, List.length_range]

theorem State.getElem_spriteBytes (s : State) {n k : Nat} (h : k < (s.spriteBytes n).length) :
    (s.spriteBytes n)[k] = s.mem.read (s.i.toNat + k) := by
  simp only [State.spriteBytes, List.getElem_map, List.getElem_range]

/-- The sprite unit's pixels put on each cell the bit the statements speak of. -/
theorem any_spritePixels_eq_spriteBit {s : State} {n : Nat} (hn : n < 16) (hfit : InBounds s n) (x0 y0 : Byte)
    (row : Fin 32) (col : Fin 64) :
    ((spritePixels x0 y0 0 (s.spriteBytes n)).any fun p => decide (p.row = row) && decide (p.col = col) && p.bit) =
      spriteBit s x0 y0 n row col := by
  have hx := x0.isLt
  have hy := y0.isLt
  have hea : ∀ k < n, (ea s.i k).toNat = s.i.toNat + k := fun k hk =>
    ea_toNat (by rcases hfit with h | h <;> omega)
  rw [Bool.eq_iff_iff, List.any_eq_true]
  simp only [spriteBit, Bool.and_eq_true, decide_eq_true_eq]
  constructor
  · rintro ⟨p, hp, ⟨hrow, hcol⟩, hbit⟩
    obtain ⟨k, hk, c, hc, rfl⟩ := mem_spritePixels.mp hp
    rw [State.length_spriteBytes] at hk
    have hr : (row.val + 256 - y0.toNat) % 32 = k := by
      rw [← hrow, spritePixel_row]; omega
    have hc' : (col.val + 256 - x0.toNat) % 64 = c := by
      rw [← hcol, spritePixel_col]; omega
    rw [spritePixel_bit, State.getElem_spriteBytes] at hbit
    rw [hr, hc', hea k hk]
    exact ⟨⟨hk, hc⟩, hbit⟩
  · rintro ⟨⟨hr, hc⟩, hbit⟩
    have hlen : (row.val + 256 - y0.toNat) % 32 < (s.spriteBytes n).length := by rwa [State.length_spriteBytes]
    refine ⟨_, mem_spritePixels.mpr ⟨_, hlen, _, hc, rfl⟩, ⟨?_, ?_⟩, ?_⟩
    · apply Fin.ext; rw [spritePixel_row]; omega
    · apply Fin.ext; rw [spritePixel_col]; omega
    · rwa [spritePixel_bit, State.getElem_spriteBytes, ← hea _ hr]

/-! ## The draw -/

/-- The screen after a draw (R178). -/
theorem cell_drawSprite {s : State} {n : Nat} (hn : n < 16) (hfit : InBounds s n) (x0 y0 : Byte) (row : Fin 32)
    (col : Fin 64) :
    (drawSprite s.fb x0 y0 (s.spriteBytes n)).1.cell row col = (s.pixel row col ^^ spriteBit s x0 y0 n row col) := by
  have hapart := spritePixels_apart x0 y0 0 (s.spriteBytes n) (by rw [State.length_spriteBytes]; omega)
  rw [drawSprite, (foldl_plot _ s.fb false hapart).1, any_spritePixels_eq_spriteBit hn hfit]
  rfl

/-- The collision a draw reports: a lit cell under a 1 bit (R178). -/
theorem drawSprite_collides_iff {s : State} {n : Nat} (hn : n < 16) (hfit : InBounds s n) (x0 y0 : Byte) :
    (drawSprite s.fb x0 y0 (s.spriteBytes n)).2 = true ↔
      ∃ row col, s.pixel row col = true ∧ spriteBit s x0 y0 n row col = true := by
  have hapart := spritePixels_apart x0 y0 0 (s.spriteBytes n) (by rw [State.length_spriteBytes]; omega)
  rw [drawSprite, (foldl_plot _ s.fb false hapart).2, Bool.false_or, List.any_eq_true]
  simp only [← any_spritePixels_eq_spriteBit hn hfit, List.any_eq_true, Bool.and_eq_true, decide_eq_true_eq]
  constructor
  · rintro ⟨p, hp, hbit, hlit⟩
    exact ⟨p.row, p.col, hlit, p, hp, ⟨rfl, rfl⟩, hbit⟩
  · rintro ⟨row, col, hlit, p, hp, ⟨rfl, rfl⟩, hbit⟩
    exact ⟨p, hp, hbit, hlit⟩

section equations

variable (x y : RegIdx) (n : Fin 16) (s : State)

theorem exec_drw_of_fits (h : InBounds s n.val) : exec (.drw x y n) s = .next
    ((s.setFB (drawSprite s.fb (s.getV x) (s.getV y) (s.spriteBytes n.val)).1).setV 15
      (flagByte (drawSprite s.fb (s.getV x) (s.getV y) (s.spriteBytes n.val)).2)) := by
  rw [exec, execDrw, ea_zero, readBytes_ok s n.val s.i h]; rfl

theorem exec_drw_of_beyond (h : ¬ InBounds s n.val) : exec (.drw x y n) s =
    .next (s.raise .outOfBounds (some (encode (.drw x y n))) (firstBad s)) := by
  obtain ⟨hn, hbeyond⟩ := not_or.mp h
  have hbad : (if 0xFFF < s.i.toNat then s.i else 0x1000) = firstBad s := by
    simp only [firstBad, ← Nat.not_lt, ite_not]
  rw [exec, execDrw, ea_zero, readBytes_error s n.val s.i hn (by omega) (by omega), hbad]; rfl

end equations

theorem flagByte_eq_zero_or_one (f : Bool) : flagByte f = 0 ∨ flagByte f = 1 := by
  cases f
  · exact .inl rfl
  · exact .inr rfl

theorem flagByte_eq_one_iff (f : Bool) : flagByte f = 1 ↔ f = true := by
  cases f <;> decide

/-- Settles O32: the sprite's pixels fall on distinct cells, each with the bit `spriteBit` names. -/
theorem drawXorsTheSpriteAndReportsCollision : Obligations.DrawXorsTheSpriteAndReportsCollision := by
  intro x y n s hfit
  obtain ⟨hregs, hframe⟩ := setV_changesOnly
    (s.setFB (drawSprite s.fb (s.getV x) (s.getV y) (s.spriteBytes n.val)).1) 15
    (flagByte (drawSprite s.fb (s.getV x) (s.getV y) (s.spriteBytes n.val)).2)
  refine ⟨_, exec_drw_of_fits x y n s hfit, cell_drawSprite n.isLt hfit _ _, ?_, ?_, hregs,
    unchangedBut_mono (unchangedBut_trans (unchangedBut_setFB s _) hframe) (by simp)⟩
  · rw [State.getV_setV_self]
    exact flagByte_eq_zero_or_one _
  · rw [State.getV_setV_self, flagByte_eq_one_iff]
    exact drawSprite_collides_iff n.isLt hfit _ _

/-- Settles O34: the reads come before the draw, and the first that fails raises. -/
theorem drawBeyondMemoryDrawsNothing : Obligations.DrawBeyondMemoryDrawsNothing := by
  intro x y n s hbeyond
  exact exec_drw_of_beyond x y n s hbeyond

/-- The sprite's bits are read from memory at `I`, and from nothing else. -/
theorem spriteBit_congr {s t : State} (hi : t.i = s.i) (hmem : ∀ a, t.mem.read a = s.mem.read a) :
    spriteBit t = spriteBit s := by
  funext x0 y0 n row col
  simp only [spriteBit, hi, hmem]

/-- Settles O33: the second draw has the same sprite bits, and exclusive or undoes itself; on a clear screen the first draw
leaves the sprite itself, which the second one meets. -/
theorem drawingTwiceRestoresTheScreen : Obligations.DrawingTwiceRestoresTheScreen := by
  intro x y n s hfit
  obtain ⟨t, hexec, hcell, hflag, hcollides, -, hframe⟩ := drawXorsTheSpriteAndReportsCollision x y n s hfit
  have hi : t.i = s.i := hframe .i (by decide)
  have hmem : ∀ a, t.mem.read a = s.mem.read a := hframe .mem (by decide)
  have hbits : spriteBit { t with v := s.v } = spriteBit s := spriteBit_congr hi hmem
  have hfit' : InBounds { t with v := s.v } n.val := by rwa [InBounds, hi]
  obtain ⟨u, hexec', hcell', hflag', hcollides', -, -⟩ :=
    drawXorsTheSpriteAndReportsCollision x y n { t with v := s.v } hfit'
  have hsame : ∀ r, State.getV { t with v := s.v } r = s.getV r := fun _ => rfl
  have hpixel : ∀ row col, State.pixel { t with v := s.v } row col = t.pixel row col := fun _ _ => rfl
  simp only [hbits, hsame, hpixel, hcell] at hcell' hcollides'
  refine ⟨t, u, hexec, hexec', fun row col => ?_, fun hclear => ⟨?_, hflag', ?_⟩⟩
  · rw [hcell', Bool.xor_assoc, Bool.xor_self, Bool.xor_false]
  · refine hflag.resolve_right fun hone => ?_
    obtain ⟨row, col, hlit, -⟩ := hcollides.mp hone
    simp [hclear row col] at hlit
  · rw [hcollides']
    simp only [hclear, Bool.false_xor, and_self]

end Sys2Proof.Machine
end

section
/-! The flag-writing ALU instructions (R146 to R150, R152). -/

namespace Sys2Proof.Machine

open Sys2Proof.Claim

/-! ## Two register writes, the later one standing -/

theorem unchangedBut_setV_setV (s : State) (x y : RegIdx) (a b : Byte) : UnchangedBut [.v] s ((s.setV x a).setV y b) :=
  unchangedBut_mono (unchangedBut_trans (unchangedBut_setV s x a) (unchangedBut_setV _ y b)) (by simp)

/-- What two register writes leave. -/
theorem setV_setV_changesOnly (s : State) (x y : RegIdx) (a b : Byte) :
    (∀ r, r ≠ x → r ≠ y → ((s.setV x a).setV y b).getV r = s.getV r) ∧
    UnchangedBut [.v] s ((s.setV x a).setV y b) :=
  ⟨fun _ hx hy => by rw [State.getV_setV_of_ne _ _ hy, State.getV_setV_of_ne _ _ hx], unchangedBut_setV_setV s x y a b⟩

/-- The register of the earlier write keeps its value where the later one goes elsewhere. -/
theorem getV_setV_setV_of_ne (s : State) {x y : RegIdx} (a b : Byte) (h : x ≠ y) :
    ((s.setV x a).setV y b).getV x = a := by
  rw [State.getV_setV_of_ne _ _ h, State.getV_setV_self]

/-! ## The results and the bits shifted out, in numbers -/

theorem toNat_sub_byte (a b : Byte) : (a - b).toNat = (a.toNat + 256 - b.toNat) % 256 := by
  bv_omega

theorem toNat_shiftRight_one (a : Byte) : (a >>> 1).toNat = a.toNat / 2 := by
  rw [BitVec.toNat_ushiftRight, Nat.shiftRight_eq_div_pow, Nat.pow_one]

theorem toNat_shiftLeft_one (a : Byte) : (a <<< 1).toNat = a.toNat * 2 % 256 := by
  rw [BitVec.toNat_shiftLeft, Nat.shiftLeft_eq, Nat.pow_one]

theorem toNat_flagByte_decide_mod_two (n : Nat) : (flagByte (decide (n % 2 = 1))).toNat = n % 2 := by
  rcases Nat.mod_two_eq_zero_or_one n with h | h
  all_goals rw [h]; rfl

theorem toNat_lowBitFlag (a : Byte) : (lowBitFlag a).toNat = a.toNat % 2 := by
  rw [lowBitFlag, BitVec.getLsbD, Nat.testBit_zero, toNat_flagByte_decide_mod_two]

theorem toNat_highBitFlag (a : Byte) : (highBitFlag a).toNat = a.toNat / 128 := by
  have ha := a.isLt
  rw [highBitFlag, BitVec.getLsbD, Nat.testBit_eq_decide_div_mod_eq, toNat_flagByte_decide_mod_two]
  omega

/-- Settles O16: the result is written before the flag, so the flag stands where x = F. -/
theorem addAndSubtractSetResultThenFlag : Obligations.AddAndSubtractSetResultThenFlag := by
  intro x y s
  refine ⟨⟨_, exec_addVxVy x y s, fun hx => ?_, ?_, setV_setV_changesOnly s x 15 _ _⟩,
    ⟨_, exec_sub x y s, fun hx => ?_, ?_, setV_setV_changesOnly s x 15 _ _⟩,
    ⟨_, exec_subn x y s, fun hx => ?_, ?_, setV_setV_changesOnly s x 15 _ _⟩⟩
  · rw [getV_setV_setV_of_ne s _ _ hx, BitVec.toNat_add]
  · rw [State.getV_setV_self, carryFlag, flagByte_decide]
  · rw [getV_setV_setV_of_ne s _ _ hx, toNat_sub_byte]
  · rw [State.getV_setV_self, noBorrowFlag, flagByte_decide]
  · rw [getV_setV_setV_of_ne s _ _ hx, toNat_sub_byte]
  · rw [State.getV_setV_self, noBorrowFlag, flagByte_decide]

/-- Settles O17: the flag is written before the result, so the result stands where x = F. -/
theorem shiftsSetFlagThenResult : Obligations.ShiftsSetFlagThenResult := by
  intro x s
  have hrest : ∀ f a : Byte, (∀ r, r ≠ x → r ≠ 15 → ((s.setV 15 f).setV x a).getV r = s.getV r) ∧
      UnchangedBut [.v] s ((s.setV 15 f).setV x a) := fun f a =>
    ⟨fun r hx hf => (setV_setV_changesOnly s 15 x f a).1 r hf hx, unchangedBut_setV_setV s 15 x f a⟩
  refine ⟨⟨_, exec_shr x s, ?_, fun hx => ?_, hrest _ _⟩, ⟨_, exec_shl x s, ?_, fun hx => ?_, hrest _ _⟩⟩
  · rw [State.getV_setV_self, toNat_shiftRight_one]
  · rw [getV_setV_setV_of_ne s _ _ hx.symm, toNat_lowBitFlag]
  · rw [State.getV_setV_self, toNat_shiftLeft_one]
  · rw [getV_setV_setV_of_ne s _ _ hx.symm, toNat_highBitFlag]

end Sys2Proof.Machine
end

section
/-! Jumps, calls and returns (R121 to R127, R214, R215). -/

namespace Sys2Proof.Machine

open Sys2Proof.Claim

/-- Settles O18: each jump is one load of `PC`, whose 16-bit sum wraps. -/
theorem jumpsLoadTheirTarget : Obligations.JumpsLoadTheirTarget := by
  intro nnn s
  refine ⟨⟨_, exec_jp nnn s, toNat_zextAddr nnn, unchangedBut_setPC s _⟩,
    ⟨_, exec_jpV0 nnn s, ?_, unchangedBut_setPC s _⟩⟩
  rw [State.setPC_pc, BitVec.toNat_add, BitVec.toNat_add, toNat_zextByte, toNat_zextAddr, Nat.mod_add_mod]

theorem val_sub_one_add_one {k : Fin 16} (h : k ≠ 0) : (k - 1).val + 1 = k.val := by
  have hk : k.val ≠ 0 := fun h0 => h (Fin.ext h0)
  rw [Fin.sub_val_of_le (Fin.one_le_of_ne_zero h), Fin.val_one]
  omega

/-- Settles O20: a pop counts `SP` down and leaves the entries. -/
theorem returnPopsTheCallStack : Obligations.ReturnPopsTheCallStack := by
  intro s
  refine ⟨fun hsp => ⟨_, exec_ret_of_nonempty s hsp, val_sub_one_add_one hsp, rfl,
    unchangedBut_trans (unchangedBut_withSP s _) (unchangedBut_setPC _ _)⟩,
    fun hsp => ⟨_, _, exec_ret_of_empty s hsp, rfl, rfl, unchangedBut_raise s _ _ _⟩⟩

theorem val_add_one_of_ne_last {k : Fin 16} (h : k ≠ 15) : (k + 1).val = k.val + 1 :=
  Fin.val_add_one_of_lt (Fin.lt_last_iff_ne_last.mpr h)

@[simp] theorem State.get_stack_pushed_self (s : State) (w : Word) : (s.pushed w).stack.get s.sp = w := by
  simp [Vector.get_eq_getElem]

theorem State.get_stack_pushed_of_ne (s : State) (w : Word) {k : Fin 16} (h : k ≠ s.sp) :
    (s.pushed w).stack.get k = s.stack.get k := by
  have hk : s.sp.val ≠ k.val := fun he => h (Fin.ext he.symm)
  simp [Vector.get_eq_getElem, Vector.getElem_set_ne, hk]

/-- Settles O21: both call instructions push the advanced `PC` and load the target. -/
theorem callsPushTheReturnAddress : Obligations.CallsPushTheReturnAddress := by
  intro nnn s i hcall
  refine ⟨fun hsp => ⟨_, (exec_of_isCall hcall s).trans (callTo_of_room hsp), s.get_stack_pushed_self s.pc,
    fun k hk => s.get_stack_pushed_of_ne s.pc hk, val_add_one_of_ne_last hsp, toNat_zextAddr nnn,
    unchangedBut_trans (unchangedBut_pushed s s.pc) (unchangedBut_setPC _ _)⟩,
    fun hsp => ⟨_, _, (exec_of_isCall hcall s).trans (callTo_of_full hsp), rfl, rfl, unchangedBut_raise s _ _ _⟩⟩

/-- Settles O22: the record holds the encoded word and the advanced `PC` less 2. -/
theorem stackFaultRecordsNameTheInstruction : Obligations.StackFaultRecordsNameTheInstruction := by
  intro nnn s
  refine ⟨exec_ret_of_empty s, fun hsp => ⟨encode (.call nnn), ?_, callTo_of_full hsp⟩,
    fun hsp => ⟨encode (.call0 nnn), ?_, callTo_of_full hsp⟩⟩
  · exact formatA_toNat 0x2 nnn
  · exact (formatA_toNat 0x0 nnn).trans (Nat.zero_add _)

/-- Settles O23: the return pops at the `SP` the call pushed at. -/
theorem returnUndoesACall : Obligations.ReturnUndoesACall := by
  intro nnn s i w hcall hsp
  have hpop : s.sp + 1 - 1 = s.sp := add_sub_cancel_right s.sp 1
  have hne : s.sp + 1 ≠ 0 := fun h0 => by
    have hval := val_add_one_of_ne_last hsp
    rw [h0, Fin.val_zero] at hval
    omega
  refine ⟨_, _, (exec_of_isCall hcall s).trans (callTo_of_room hsp), exec_ret_of_nonempty _ hne, ?_, hpop⟩
  simp only [State.setPC_pc, State.setPC_sp, State.setPC_stack, State.pushed_sp, hpop, State.get_stack_pushed_self]

end Sys2Proof.Machine
end

section
/-! The index to a glyph, the random byte, the timers and the keys (R163, R191 to R198). -/

namespace Sys2Proof.Machine

open Sys2Proof.Claim

/-- Settles O25: five times a byte fits in 16 bits. -/
theorem glyphAddressIsFiveTimesVx : Obligations.GlyphAddressIsFiveTimesVx := by
  intro x s
  have hV := (s.getV x).isLt
  refine ⟨_, exec_ldFVx x s, ?_, unchangedBut_setI s _⟩
  have hglyph : (BitVec.ofNat 16 Config.glyphBytes).toNat = 5 := rfl
  rw [State.setI_i, glyphAddress, BitVec.toNat_mul, toNat_zextByte, hglyph]
  omega

/-- Settles O35: one register write of the free byte under the mask, after the count of free bytes is moved on. -/
theorem randomByteIsMasked : Obligations.RandomByteIsMasked := by
  intro x nn s
  obtain ⟨hregs, hframe⟩ := setV_changesOnly s.drawRandom x (s.rndIn &&& nn)
  refine ⟨_, exec_rnd x nn s, fun k _ => ?_, hregs, rfl,
    unchangedBut_mono (unchangedBut_trans (unchangedBut_drawRandom s) hframe) (by simp)⟩
  rw [State.getV_setV_self, BitVec.getLsbD_and, State.rndIn]

/-- Settles O39: each moves one byte between a register and a timer. -/
theorem timerInstructionsMoveTheByte : Obligations.TimerInstructionsMoveTheByte := by
  intro x s
  refine ⟨⟨_, exec_ldVxDt x s, s.getV_setV_self x s.dt, setV_changesOnly s x s.dt⟩,
    ⟨_, exec_ldDtVx x s, rfl, unchangedBut_setDT s _⟩, ⟨_, exec_ldStVx x s, rfl, ?_, unchangedBut_setST s _⟩⟩
  rw [State.soundOn, State.setST_st, bne_iff_ne]

theorem toNat_keyByte (k : KeyNumber) : (keyByte k).toNat = k.val :=
  toNat_ofNat_byte (Nat.lt_trans k.isLt (by decide))

/-- The latch matches a register exactly where it holds a key equal to the whole byte (R198). -/
theorem keyMatches_iff {key : Option KeyNumber} {b : Byte} :
    keyMatches key b = true ↔ ∃ k, key = some k ∧ k.val = b.toNat := by
  cases key with
  | none => simp [keyMatches]
  | some k => simp [keyMatches, BitVec.toNat_eq, toNat_keyByte]

theorem keyMatches_eq_false {key : Option KeyNumber} {b : Byte} (h : ∀ k, key = some k → k.val ≠ b.toNat) :
    keyMatches key b = false :=
  Bool.eq_false_iff.mpr fun hm => by
    obtain ⟨k, hk, hb⟩ := keyMatches_iff.mp hm
    exact h k hk hb

/-- Settles O36: a skip on the match or the mismatch, and then the latch emptied. -/
theorem keySkipsConsumeTheLatch : Obligations.KeySkipsConsumeTheLatch := by
  intro x s
  have hframe : ∀ c, UnchangedBut [.pc, .key] s ((skipIf c s).setKey none) := fun c =>
    unchangedBut_trans (unchangedBut_skipIf c s) (unchangedBut_setKey _ _)
  refine ⟨⟨_, exec_skp x s, rfl, hframe _, fun hmatch => ?_, fun hno => ?_⟩,
    ⟨_, exec_sknp x s, rfl, hframe _, fun hmatch => ?_, fun hno => ?_⟩⟩
  · rw [keyMatches_iff.mpr hmatch]; rfl
  · rw [keyMatches_eq_false hno]; rfl
  · rw [keyMatches_iff.mpr hmatch]; rfl
  · rw [keyMatches_eq_false hno]; rfl

/-- Settles O37: one register write of the key's number, and then the latch emptied. -/
theorem waitForKeyTakesTheLatchedKey : Obligations.WaitForKeyTakesTheLatchedKey := by
  intro x k s hkey
  obtain ⟨hregs, hframe⟩ := setV_changesOnly s x (keyByte k)
  refine ⟨_, exec_ldVxK_of_some x s hkey, ?_, rfl, hregs, unchangedBut_trans hframe (unchangedBut_setKey _ _)⟩
  rw [State.getV_setKey, State.getV_setV_self, toNat_keyByte]

end Sys2Proof.Machine
end

section
/-! Reset, the loader and the host's events (R59, R226, R228, R240, R242). -/

namespace Sys2Proof.Machine

open Sys2Proof.Claim

/-! ## Reset -/

theorem get_stack_resetWith (font : FontImage) (k : Fin 16) : (State.resetWith font).stack.get k = 0 := by
  rw [State.resetWith, Vector.get_eq_getElem, Vector.getElem_replicate]

theorem getV_resetWith (font : FontImage) (r : RegIdx) : (State.resetWith font).getV r = 0 := by
  rw [State.getV, State.resetWith, Vector.get_eq_getElem, Vector.getElem_replicate]

theorem toList_defaultFont : defaultFont.toList = printedFont := rfl

/-- Settles O43: every field of the reset state is written out, and memory reads as the printed font and zeros. -/
theorem resetLeavesTheListedValues : Obligations.ResetLeavesTheListedValues := by
  have hread : ∀ a, State.reset.mem.read a = printedFont.getD a 0 := fun a => by
    rw [State.reset, Memory.read_resetWith, toList_defaultFont]
  refine ⟨getV_resetWith defaultFont, rfl, rfl, rfl, get_stack_resetWith defaultFont, rfl, rfl, rfl, rfl,
    Framebuffer.cell_clear, fun a _ => hread a, fun a ha => ?_⟩
  rw [hread, List.getD_eq_default]
  exact ha

/-! ## The boot event -/

/-- The other pieces of state after a boot are those of the reset state: only the font and the model's own fields differ. -/
theorem unchangedBut_reset_hostReset (s : State) (font : FontImage) (m : Memory) :
    UnchangedBut [.mem, .events, .after, .rndCount] State.reset { s.hostReset font with mem := m } := by
  intro p hp
  cases p
  case mem | events | after | rndCount => simp at hp
  case v => exact fun r => (getV_resetWith font r).trans (getV_resetWith defaultFont r).symm
  case stack => exact fun k => (get_stack_resetWith font k).trans (get_stack_resetWith defaultFont k).symm
  case fb => exact fun _ _ => rfl
  all_goals exact rfl

/-- Settles O42: a boot is a reset and one load at 0x200, which fits exactly for at most 0xE00 bytes. -/
theorem bootGivesTheLaunchState : Obligations.BootGivesTheLaunchState := by
  intro s s' font program hnext
  have hstep : step s = load Config.programBase program (s'.hostReset font) := step_of_eventIsNext hnext
  rw [hstep, load]
  refine ⟨fun hlong => if_neg ?_, fun hshort => ?_⟩
  · simp only [Config.programBase, Config.memSize]; omega
  · have hfit : Config.programBase + program.length ≤ Config.memSize := by
      simp only [Config.programBase, Config.memSize]; omega
    have hwf : (s'.hostReset font).mem.wf = true := Memory.wf_resetWith font
    refine ⟨_, if_pos hfit, fun a => ?_, Memory.wf_writeBytes hfit hwf, rfl, rfl, ?_,
      unchangedBut_reset_hostReset s' font _⟩
    · exact (Memory.read_writeBytes a hfit hwf).trans (by rw [← Memory.read_resetWith font a]; rfl)
    · obtain ⟨es, o, rfl⟩ := frame_of_eventIsNext hnext
      rfl

/-! ## Ticks and keys -/

theorem step_of_tickIsNext {s s' : State} (h : EventIsNext s .tick s') : step s = .next s'.tick := step_of_eventIsNext h

theorem step_of_setKeyIsNext {s s' : State} {k : Option KeyNumber} (h : EventIsNext s (.setKey k) s') :
    step s = .next (s'.setKey k) := step_of_eventIsNext h

theorem unchangedBut_withEvents (s : State) (es : List Event) : UnchangedBut [.events] s { s with events := es } := by
  intro p hp
  cases p
  case events => simp at hp
  all_goals simp [Same]

/-- Settles O41: neither event looks at HALT, and a key overwrites the latch whatever it holds. -/
theorem tickAndSetKeyActAtTheirTurn : Obligations.TickAndSetKeyActAtTheirTurn := by
  intro s s'
  refine ⟨fun htick => ⟨_, step_of_tickIsNext htick, ?_, ?_, unchangedBut_tick s'⟩,
    fun k hkey => ⟨_, step_of_setKeyIsNext hkey, rfl, unchangedBut_setKey s' k⟩, fun j k es hes => ?_⟩
  · obtain ⟨es, o, rfl⟩ := frame_of_eventIsNext htick
    exact toNat_countDown _
  · obtain ⟨es, o, rfl⟩ := frame_of_eventIsNext htick
    exact toNat_countDown _
  · have hfirst := step_of_setKeyIsNext (.inl ⟨_, hes, rfl⟩)
    have hsecond := step_of_setKeyIsNext
      (s := State.setKey { s with events := .setKey k :: es } j) (.inl ⟨es, rfl, rfl⟩)
    refine ⟨_, _, hfirst, hsecond, rfl, rfl, ?_⟩
    exact unchangedBut_mono (unchangedBut_trans (unchangedBut_withEvents s es) (unchangedBut_setKey _ k)) (by simp)

/-! ## Runs without end (R62, R107) -/

/-- Under a host that raises `tick` for ever, `k` events are `k` ticks. -/
theorem run_of_cycle_tick (k : Nat) (s : State) (hes : s.events = []) (hafter : s.after = .cycle [.tick]) :
    core.run k s = .next (State.tick^[k] s) := by
  induction k generalizing s with
  | zero => rfl
  | succ k ih =>
    have hself : ({ s with events := [] } : State) = s := by rw [← hes]
    have hstep : step s = .next s.tick := step_of_tickIsNext (.inr (.inr (.inl ⟨[], hes, hafter, hself.symm⟩)))
    rw [run_succ (M := core) hstep, ih s.tick hes hafter, Function.iterate_succ_apply]

/-- Under a host that raises `step` and `tick` in turn, a machine at a jump to its own address only ticks. -/
theorem run_of_cycle_step_tick {nnn : Addr12} (k : Nat) (s : State) (hes : s.events = [])
    (hafter : s.after = .cycle [.step, .tick]) (hhalt : s.halt = none) (hpc : s.pc.toNat ≤ 0xFFE)
    (htarget : s.pc.toNat = nnn.toNat) (hword : fetched s = encode (.jp nnn)) :
    core.run (2 * k) s = .next (State.tick^[k] s) := by
  induction k generalizing s with
  | zero => rfl
  | succ k ih =>
    have hself : ({ s with events := [] } : State) = s := by rw [← hes]
    have hjump : step s = .next { s with events := [.tick] } :=
      selfJumpChangesNothing s _ nnn (.inr (.inr (.inl ⟨_, hes, hafter, rfl⟩))) hhalt hpc htarget hword
    have htick : core.step ({ s with events := [.tick] } : State) = .next s.tick :=
      step_of_tickIsNext (s := { s with events := [.tick] }) (.inl ⟨[], rfl, hself.symm⟩)
    rw [Nat.mul_succ, run_succ (M := core) hjump, run_succ htick,
      ih s.tick hes hafter hhalt hpc htarget hword, Function.iterate_succ_apply]

/-- Settles O49: by induction on the number of ticks, each round of the schedule leaving one tick and nothing else. -/
theorem ticksMayGoOnWithoutEnd : Obligations.TicksMayGoOnWithoutEnd := by
  intro k s hes
  exact ⟨run_of_cycle_tick k s hes, fun _ => run_of_cycle_step_tick k s hes⟩

end Sys2Proof.Machine
end

section
/-! The invariant of the machine's runs: it holds at reset and every event keeps it (R23, R26, R121, R126). -/

namespace Sys2Proof.Machine

open Sys2Proof.Claim

/-! ## The invariant and the operations of the state -/

section operations

variable {s : State}

/-- The invariant speaks of memory, `PC` and the stack alone. -/
theorem State.Inv.of_eq {t : State} (h : s.Inv) (hmem : t.mem = s.mem) (hpc : t.pc = s.pc) (hstack : t.stack = s.stack) :
    t.Inv where
  memory_canonical := hmem ▸ h.memory_canonical
  pc_bounded := hpc ▸ h.pc_bounded
  stack_bounded := hstack ▸ h.stack_bounded
  last_entry_unused := hstack ▸ h.last_entry_unused

theorem State.Inv.setPC (h : s.Inv) {w : Word} (hw : w.toNat ≤ 0x20FE) : (s.setPC w).Inv where
  memory_canonical := h.memory_canonical
  pc_bounded := hw
  stack_bounded := h.stack_bounded
  last_entry_unused := h.last_entry_unused

theorem State.Inv.withMem (h : s.Inv) {m : Memory} (hm : m.wf = true) : State.Inv { s with mem := m } where
  memory_canonical := hm
  pc_bounded := h.pc_bounded
  stack_bounded := h.stack_bounded
  last_entry_unused := h.last_entry_unused

theorem State.Inv.raise (h : s.Inv) (c : FatalCause) (o : Option Word) (a : Word) : (s.raise c o a).Inv :=
  h.of_eq rfl rfl rfl

theorem State.Inv.stored (h : s.Inv) (bs : List Byte) : (s.stored bs).Inv := h.withMem (wf_stored h.memory_canonical bs)

/-- A push at an `SP` below the greatest depth leaves the last entry alone (R121; decision D7). -/
theorem State.Inv.pushed (h : s.Inv) (hsp : s.sp ≠ 15) {w : Word} (hw : w.toNat ≤ 0x1000) : (s.pushed w).Inv where
  memory_canonical := h.memory_canonical
  pc_bounded := h.pc_bounded
  stack_bounded k := by
    by_cases hk : k = s.sp
    · rwa [hk, State.get_stack_pushed_self]
    · rw [s.get_stack_pushed_of_ne w hk]
      exact h.stack_bounded k
  last_entry_unused := by
    rw [s.get_stack_pushed_of_ne w hsp.symm]
    exact h.last_entry_unused

theorem toNat_add_two_le {w : Word} {b : Nat} (hw : w.toNat ≤ b) (hb : b ≤ 0xFFFD) : (w + 2).toNat ≤ b + 2 := by
  have htwo : (2 : Word).toNat = 2 := rfl
  rw [BitVec.toNat_add, htwo]
  omega

/-- A skip from a bounded `PC` (R132). -/
theorem State.Inv.skipIf (h : s.Inv) (hpc : s.pc.toNat ≤ 0x1000) (c : Bool) : (skipIf c s).Inv := by
  have hskip := toNat_add_two_le hpc (by omega)
  rw [skipIf_eq]
  cases c
  · exact h.setPC h.pc_bounded
  · exact h.setPC (hskip.trans (by omega))

theorem State.Inv.callTo (h : s.Inv) (hpc : s.pc.toNat ≤ 0x1000) (op : Word) (nnn : Addr12) :
    ∃ t, callTo op nnn s = .next t ∧ t.Inv := by
  have htarget : (zextAddr nnn).toNat ≤ 0x20FE := by rw [toNat_zextAddr]; omega
  rcases callTo_cases op nnn s with ⟨hsp, e⟩ | ⟨-, e⟩
  · exact ⟨_, e, (h.pushed hsp hpc).setPC htarget⟩
  · exact ⟨_, e, h.raise _ _ _⟩

theorem State.Inv.storeBytes (h : s.Inv) (op : Word) {bs : List Byte} (hbs : bs ≠ []) :
    ∃ t, storeBytes op bs (ea s.i 0) s = .next t ∧ t.Inv := by
  rcases storeBytes_at_I op hbs s with ⟨-, e⟩ | ⟨-, e⟩
  · exact ⟨_, e, h.stored bs⟩
  · exact ⟨_, e, (h.stored bs).raise _ _ _⟩

end operations

/-! ## Every instruction and every event keeps it -/

/-- The execute phase keeps the invariant, from a `PC` that a fetch has just advanced (R23). -/
theorem exec_keeps_inv {s : State} (h : s.Inv) (hlo : 2 ≤ s.pc.toNat) (hhi : s.pc.toNat ≤ 0x1000) (i : Instr) :
    ∃ t, exec i s = .next t ∧ t.Inv := by
  cases i
  case ldVxNn | addVxNn | ldVxVy | or | and | xor | addVxVy | sub | shr | subn | shl | ldINnn | rnd | ldVxDt | ldDtVx |
      ldStVx | addIVx | ldFVx | cls => exact ⟨_, rfl, h.of_eq rfl rfl rfl⟩
  case seVxNn | sneVxNn | seVxVy | sneVxVy => exact ⟨_, rfl, h.skipIf hhi _⟩
  case skp | sknp => exact ⟨_, rfl, (h.skipIf hhi _).of_eq rfl rfl rfl⟩
  case call0 nnn | call nnn => exact h.callTo hhi _ nnn
  case jp nnn => exact ⟨_, rfl, h.setPC (by rw [toNat_zextAddr]; omega)⟩
  case jpV0 nnn =>
    have hV := (s.getV 0).isLt
    refine ⟨_, rfl, h.setPC ?_⟩
    rw [BitVec.toNat_add, BitVec.toNat_add, toNat_zextByte, toNat_zextAddr]
    omega
  case ret =>
    by_cases hsp : s.sp = 0
    · exact ⟨_, exec_ret_of_empty s hsp, h.raise _ _ _⟩
    · have hentry := h.stack_bounded (s.sp - 1)
      have hpopped : State.Inv { s with sp := s.sp - 1 } := h.of_eq rfl rfl rfl
      exact ⟨_, exec_ret_of_nonempty s hsp, hpopped.setPC (hentry.trans (by omega))⟩
  case drw x y n =>
    by_cases hfit : InBounds s n.val
    · exact ⟨_, exec_drw_of_fits x y n s hfit, h.of_eq rfl rfl rfl⟩
    · exact ⟨_, exec_drw_of_beyond x y n s hfit, h.raise _ _ _⟩
  case ldVxK x =>
    cases hkey : s.key with
    | none =>
      have hback : (s.pc - 2).toNat ≤ 0x20FE := by bv_omega
      exact ⟨_, exec_ldVxK_of_none x s hkey, h.setPC hback⟩
    | some k => exact ⟨_, exec_ldVxK_of_some x s hkey, h.of_eq rfl rfl rfl⟩
  case ldBVx x => exact h.storeBytes _ (List.cons_ne_nil _ _)
  case ldMiVx x => exact h.storeBytes _ (s.regBytes_ne_nil x)
  case ldVxMi x =>
    obtain ⟨v, hexec, -⟩ := exec_ldVxMi x s
    exact ⟨_, hexec, h.of_eq rfl rfl rfl⟩

theorem stepCpu_keeps_inv {s t : State} (h : s.Inv) (hstep : stepCpu s = .next t) : t.Inv := by
  rcases stepCpu_cases s with ⟨r, -, e⟩ | ⟨-, -, e⟩ | ⟨-, hpc, e⟩
  · cases e.symm.trans hstep
  · cases e.symm.trans hstep
    exact h.raise _ _ _
  · have htwo : (2 : Word).toNat = 2 := rfl
    have hadvance : (s.pc + 2).toNat = s.pc.toNat + 2 := by rw [BitVec.toNat_add]; omega
    have hadvanced : (s.setPC (s.pc + 2)).Inv := h.setPC (by omega)
    rw [e, executeWord] at hstep
    split at hstep
    case h_1 i hdecode =>
      obtain ⟨t', hexec, hinv⟩ := exec_keeps_inv hadvanced (by rw [State.setPC_pc]; omega)
        (by rw [State.setPC_pc]; omega) i
      cases hexec.symm.trans hstep
      exact hinv
    case h_2 => cases hstep; exact hadvanced.raise _ _ _

theorem inv_resetWith (font : FontImage) : (State.resetWith font).Inv where
  memory_canonical := Memory.wf_resetWith font
  pc_bounded := show Config.pcReset.toNat ≤ 0x20FE by decide
  stack_bounded k := by rw [get_stack_resetWith]; decide
  last_entry_unused := get_stack_resetWith font 15

/-- Settles O45: the invariant holds at reset whatever the font. -/
theorem resetMeetsTheInvariant : Obligations.ResetMeetsTheInvariant := inv_resetWith defaultFont

theorem perform_keeps_inv {s t : State} (h : s.Inv) (e : Event) (hstep : s.perform e = .next t) : t.Inv := by
  cases e with
  | step => exact stepCpu_keeps_inv h hstep
  | tick => cases hstep; exact h.of_eq rfl rfl rfl
  | setKey k => cases hstep; exact h.of_eq rfl rfl rfl
  | boot font program =>
    have hreset : (s.hostReset font).Inv := (inv_resetWith font).of_eq rfl rfl rfl
    rw [State.perform, State.boot, load] at hstep
    split at hstep
    case isTrue hfit => cases hstep; exact hreset.withMem (Memory.wf_writeBytes hfit hreset.memory_canonical)
    case isFalse => cases hstep

/-- Settles O44: taking an event leaves what the invariant speaks of, and performing one keeps it. -/
theorem stepKeepsTheInvariant : Obligations.StepKeepsTheInvariant := by
  intro s t h hstep
  have htaken : s.takeEvent.2.Inv := by
    obtain ⟨es, o, hs⟩ := takeEvent_frame s
    exact hs ▸ h.of_eq rfl rfl rfl
  exact perform_keeps_inv htaken s.takeEvent.1 hstep

end Sys2Proof.Machine
end

section
/-! What each instruction can change, where it raises a fatal condition, and what it does not read (R27, R30, R104, R211). -/

namespace Sys2Proof

open Sys2Proof.Machine Sys2Proof.Claim

/-- The pieces of the state an instruction's execute phase can write, HALT where it can raise a fatal condition. -/
def Instr.writes : Instr → List Part
  | .cls => [.fb]
  | .ret => [.sp, .pc, .halt]
  | .call0 _ | .call _ => [.stack, .sp, .pc, .halt]
  | .jp _ | .jpV0 _ => [.pc]
  | .seVxNn _ _ | .sneVxNn _ _ | .seVxVy _ _ | .sneVxVy _ _ => [.pc]
  | .ldVxNn _ _ | .addVxNn _ _ | .ldVxVy _ _ | .or _ _ | .and _ _ | .xor _ _ => [.v]
  | .addVxVy _ _ | .sub _ _ | .subn _ _ | .shr _ | .shl _ => [.v]
  | .ldINnn _ | .ldFVx _ => [.i]
  | .addIVx _ => [.i, .v]
  | .rnd _ _ => [.rndCount, .v]
  | .drw _ _ _ => [.fb, .v, .halt]
  | .skp _ | .sknp _ => [.pc, .key]
  | .ldVxDt _ => [.v]
  | .ldVxK _ => [.v, .key, .pc]
  | .ldDtVx _ => [.dt]
  | .ldStVx _ => [.st]
  | .ldBVx _ | .ldMiVx _ => [.mem, .halt]
  | .ldVxMi _ => [.v, .halt]

end Sys2Proof

namespace Sys2Proof.Machine

open Sys2Proof.Claim

/-! ## Every instruction answers a next state and keeps to its frame -/

theorem callTo_unchangedBut (op : Word) (nnn : Addr12) (s : State) :
    ∃ t, callTo op nnn s = .next t ∧ UnchangedBut [.stack, .sp, .pc, .halt] s t := by
  rcases callTo_cases op nnn s with ⟨-, e⟩ | ⟨-, e⟩
  · exact ⟨_, e, unchangedBut_mono (unchangedBut_trans (unchangedBut_pushed s _) (unchangedBut_setPC _ _)) (by simp)⟩
  · exact ⟨_, e, unchangedBut_mono (unchangedBut_raise s _ _ _) (by simp)⟩

theorem storeBytes_unchangedBut (op : Word) {bs : List Byte} (hbs : bs ≠ []) (s : State) :
    ∃ t, storeBytes op bs (ea s.i 0) s = .next t ∧ UnchangedBut [.mem, .halt] s t := by
  rcases storeBytes_at_I op hbs s with ⟨-, e⟩ | ⟨-, e⟩
  · exact ⟨_, e, unchangedBut_mono (unchangedBut_stored s bs) (by simp)⟩
  · exact ⟨_, e, unchangedBut_trans (unchangedBut_stored s bs) (unchangedBut_raise _ _ _ _)⟩

/-- The execute phase always answers a next state, and it differs in the pieces the instruction writes alone. -/
theorem exec_unchangedBut (i : Instr) (s : State) : ∃ t, exec i s = .next t ∧ UnchangedBut i.writes s t := by
  cases i
  case cls => exact ⟨_, rfl, unchangedBut_setFB s _⟩
  case jp | jpV0 => exact ⟨_, rfl, unchangedBut_setPC s _⟩
  case seVxNn | sneVxNn | seVxVy | sneVxVy => exact ⟨_, rfl, unchangedBut_skipIf _ s⟩
  case ldVxNn | addVxNn | ldVxVy | or | and | xor | ldVxDt => exact ⟨_, rfl, unchangedBut_setV s _ _⟩
  case addVxVy | sub | subn | shr | shl => exact ⟨_, rfl, unchangedBut_setV_setV s _ _ _ _⟩
  case ldINnn | ldFVx => exact ⟨_, rfl, unchangedBut_setI s _⟩
  case addIVx => exact ⟨_, rfl, unchangedBut_trans (unchangedBut_setI s _) (unchangedBut_setV _ _ _)⟩
  case rnd => exact ⟨_, rfl, unchangedBut_trans (unchangedBut_drawRandom s) (unchangedBut_setV _ _ _)⟩
  case skp | sknp => exact ⟨_, rfl, unchangedBut_trans (unchangedBut_skipIf _ s) (unchangedBut_setKey _ _)⟩
  case ldDtVx => exact ⟨_, rfl, unchangedBut_setDT s _⟩
  case ldStVx => exact ⟨_, rfl, unchangedBut_setST s _⟩
  case ret =>
    by_cases hsp : s.sp = 0
    · exact ⟨_, exec_ret_of_empty s hsp, unchangedBut_mono (unchangedBut_raise s _ _ _) (by simp [Instr.writes])⟩
    · exact ⟨_, exec_ret_of_nonempty s hsp, unchangedBut_mono
        (unchangedBut_trans (unchangedBut_withSP s _) (unchangedBut_setPC _ _)) (by simp [Instr.writes])⟩
  case call0 nnn | call nnn => exact callTo_unchangedBut _ nnn s
  case drw x y n =>
    by_cases hfit : InBounds s n.val
    · exact ⟨_, exec_drw_of_fits x y n s hfit, unchangedBut_mono
        (unchangedBut_trans (unchangedBut_setFB s _) (unchangedBut_setV _ _ _)) (by simp [Instr.writes])⟩
    · exact ⟨_, exec_drw_of_beyond x y n s hfit, unchangedBut_mono (unchangedBut_raise s _ _ _) (by simp [Instr.writes])⟩
  case ldVxK x =>
    cases hkey : s.key with
    | none => exact ⟨_, exec_ldVxK_of_none x s hkey, unchangedBut_mono (unchangedBut_setPC s _) (by simp [Instr.writes])⟩
    | some k => exact ⟨_, exec_ldVxK_of_some x s hkey, unchangedBut_mono
        (unchangedBut_trans (unchangedBut_setV s _ _) (unchangedBut_setKey _ _)) (by simp [Instr.writes])⟩
  case ldBVx => exact storeBytes_unchangedBut _ (List.cons_ne_nil _ _) s
  case ldMiVx x => exact storeBytes_unchangedBut _ (s.regBytes_ne_nil x) s
  case ldVxMi x =>
    obtain ⟨v, hexec, -⟩ := exec_ldVxMi x s
    exact ⟨_, hexec, unchangedBut_trans (unchangedBut_withVector s v) (unchangedBut_withHalt _ _)⟩

/-- What `exec` answers keeps to the instruction's frame. -/
theorem unchangedBut_of_exec {i : Instr} {s t : State} (hexec : exec i s = .next t) : UnchangedBut i.writes s t := by
  obtain ⟨t', hexec', hframe⟩ := exec_unchangedBut i s
  cases hexec'.symm.trans hexec
  exact hframe

/-- No instruction touches the host's schedule. -/
theorem schedule_not_mem_writes (i : Instr) : Part.events ∉ i.writes ∧ Part.after ∉ i.writes := by
  cases i <;> simp [Instr.writes]

/-- Settles O46: a piece that changed is one the instruction writes, and `writes` lists each piece for the instructions the
statement lists. -/
theorem eachPieceHasItsOwnWriters : Obligations.EachPieceHasItsOwnWriters := by
  intro i s t hexec
  have hframe := unchangedBut_of_exec hexec
  have hwrites : ∀ p, ¬ Same s t p → p ∈ i.writes := fun p h => by_contra fun hp => h (hframe p hp)
  obtain ⟨hevents, hafter⟩ := schedule_not_mem_writes i
  refine ⟨fun h => ?v, fun h => ?i, fun h => ?pc, fun h => ?stack, fun h => ?sp, fun h => ?dt, fun h => ?st, fun h => ?key,
    fun h => ?mem, fun h => ?fb, fun h => ?halt, fun h => ?rndCount, hframe .events hevents, hframe .after hafter⟩
  all_goals
    have hp := hwrites _ h
    revert hp
    cases i <;> simp [Instr.writes]

/-- Settles O10: a step event of a running machine faults only by a halt, and the other events but a boot always act. -/
theorem runningMachineAlwaysSteps : Obligations.RunningMachineAlwaysSteps := by
  intro s hhalt hboot
  have hnext : EventIsNext s s.takeEvent.1 s.takeEvent.2 := eventIsNext_iff.mpr rfl
  cases he : s.takeEvent.1 with
  | step =>
    rw [he] at hnext
    rcases Nat.lt_or_ge 0xFFE s.pc.toNat with hpc | hpc
    · exact ⟨_, fetchBeyondMemoryRaisesOutOfBounds s _ hnext hhalt hpc⟩
    · cases hdecode : decodeWord (fetched s) with
      | none => exact ⟨_, invalidWordRaisesInvalidOpcode s _ hnext hhalt hpc hdecode⟩
      | some i =>
        obtain ⟨t, hexec, -⟩ := exec_unchangedBut i (s.takeEvent.2.setPC (s.pc + 2))
        exact ⟨t, (stepRunsTheDecodedInstruction s _ i hnext hhalt hpc hdecode).trans hexec⟩
  | tick => exact ⟨_, step_of_tickIsNext (he ▸ hnext)⟩
  | setKey k => exact ⟨_, step_of_setKeyIsNext (he ▸ hnext)⟩
  | boot font program => exact absurd (he ▸ hnext) (hboot font program _)

/-! ## Fatal conditions (R211) -/

/-- A store raises exactly where it runs beyond memory (R213). -/
theorem storeBytes_raises (op : Word) {bs : List Byte} (hbs : bs ≠ []) {s : State} (hhalt : s.halt = none) :
    ∃ t, storeBytes op bs (ea s.i 0) s = .next t ∧
      t.halt.map FaultRecord.cause = if s.i.toNat + bs.length ≤ 0x1000 then none else some .outOfBounds := by
  rcases storeBytes_at_I op hbs s with ⟨hfit, e⟩ | ⟨hbeyond, e⟩
  · exact ⟨_, e, by rw [if_pos hfit, State.stored, hhalt]; rfl⟩
  · exact ⟨_, e, by rw [if_neg (Nat.not_le.mpr hbeyond)]; rfl⟩

/-- A call raises exactly at the greatest depth (R214). -/
theorem callTo_raises (op : Word) (nnn : Addr12) {s : State} (hhalt : s.halt = none) :
    ∃ t, callTo op nnn s = .next t ∧
      t.halt.map FaultRecord.cause = if s.sp = 15 then some .stackOverflow else none := by
  rcases callTo_cases op nnn s with ⟨hroom, e⟩ | ⟨hfull, e⟩
  · exact ⟨_, e, by rw [if_neg hroom, State.setPC_halt, State.pushed_halt, hhalt]; rfl⟩
  · exact ⟨_, e, by rw [if_pos hfull]; rfl⟩

/-- An instruction that never writes HALT raises nothing. -/
theorem exec_raises_none {i : Instr} {s : State} (hhalt : s.halt = none) (hi : Part.halt ∉ i.writes) :
    ∃ t, exec i s = .next t ∧ t.halt.map FaultRecord.cause = none := by
  obtain ⟨t, hexec, hframe⟩ := exec_unchangedBut i s
  have hsame : t.halt = s.halt := hframe .halt hi
  exact ⟨t, hexec, by rw [hsame, hhalt]; rfl⟩

/-- Settles O11: only the instructions that write HALT can raise, each on its own bound. -/
theorem fatalConditionsAreExactlyTheListed : Obligations.FatalConditionsAreExactlyTheListed := by
  intro i s hhalt
  cases i
  case ret =>
    by_cases hsp : s.sp = 0
    · exact ⟨_, exec_ret_of_empty s hsp, by rw [raises, if_pos hsp]; rfl⟩
    · exact ⟨_, exec_ret_of_nonempty s hsp, by rw [raises, if_neg hsp, State.setPC_halt, hhalt]; rfl⟩
  case call0 nnn | call nnn => exact callTo_raises _ nnn hhalt
  case drw x y n =>
    by_cases hfit : InBounds s n.val
    · exact ⟨_, exec_drw_of_fits x y n s hfit, by
        rw [State.setV_halt, State.setFB_halt, hhalt]; exact (if_pos hfit).symm⟩
    · exact ⟨_, exec_drw_of_beyond x y n s hfit, (if_neg hfit).symm⟩
  case ldBVx x => exact storeBytes_raises _ (List.cons_ne_nil _ _) hhalt
  case ldMiVx x =>
    obtain ⟨t, hexec, ht⟩ := storeBytes_raises (encode (.ldMiVx x)) (s.regBytes_ne_nil x) hhalt
    exact ⟨t, hexec, by rw [ht, State.length_regBytes]; rfl⟩
  case ldVxMi x =>
    obtain ⟨v, hexec, -⟩ := exec_ldVxMi x s
    refine ⟨_, hexec, ?_⟩
    rw [raises, hhalt]
    split <;> rfl
  all_goals exact exec_raises_none hhalt (by simp [Instr.writes])

/-! ## What is not read (R27, R30) -/

/-- The state with the sound timer and the screen, which the host alone reads, replaced. -/
def State.mapOutputs (σ : Byte → Byte) (φ : Framebuffer → Framebuffer) (s : State) : State :=
  { s with st := σ s.st, fb := φ s.fb }

section outputs

variable (σ : Byte → Byte) (φ : Framebuffer → Framebuffer)

theorem skipIf_mapOutputs (c : Bool) (s : State) : skipIf c (s.mapOutputs σ φ) = (skipIf c s).mapOutputs σ φ := by
  rw [skipIf_eq, skipIf_eq]; rfl

theorem callTo_mapOutputs (op : Word) (nnn : Addr12) (s : State) :
    callTo op nnn (s.mapOutputs σ φ) = onNext (State.mapOutputs σ φ) (callTo op nnn s) := by
  by_cases hsp : s.sp = 15
  · rw [callTo_of_full hsp, callTo_of_full (s := s.mapOutputs σ φ) hsp]; rfl
  · rw [callTo_of_room hsp, callTo_of_room (s := s.mapOutputs σ φ) hsp]; rfl

theorem storeBytes_mapOutputs (op : Word) (bs : List Byte) (a : Word) (s : State) :
    storeBytes op bs a (s.mapOutputs σ φ) = onNext (State.mapOutputs σ φ) (storeBytes op bs a s) := by
  rw [storeBytes_eq, storeBytes_eq]; rfl

theorem loadRegs_mapOutputs (op : Word) (rs : List RegIdx) (a : Word) (s : State) :
    loadRegs op rs a (s.mapOutputs σ φ) = onNext (State.mapOutputs σ φ) (loadRegs op rs a s) := by
  induction rs generalizing a s with
  | nil => rfl
  | cons r rs ih =>
    have hread : memRead (s.mapOutputs σ φ) a = memRead s a := rfl
    rw [loadRegs, loadRegs, hread]
    cases memRead s a with
    | ok b => exact ih (ea a 1) (s.setV r b)
    | error bad => rfl

/-- The execute phase of every instruction but the three that write them goes past the sound timer and the screen. -/
theorem exec_mapOutputs {i : Instr} (hcls : i ≠ .cls) (hdrw : ∀ x y n, i ≠ .drw x y n) (hst : ∀ x, i ≠ .ldStVx x)
    (s : State) : exec i (s.mapOutputs σ φ) = onNext (State.mapOutputs σ φ) (exec i s) := by
  cases i
  case cls => exact absurd rfl hcls
  case drw x y n => exact absurd rfl (hdrw x y n)
  case ldStVx x => exact absurd rfl (hst x)
  case seVxNn | sneVxNn | seVxVy | sneVxVy => exact congrArg Host.Outcome.next (skipIf_mapOutputs σ φ _ s)
  case skp | sknp => exact congrArg (fun t => Host.Outcome.next (State.setKey t none)) (skipIf_mapOutputs σ φ _ s)
  case call0 nnn | call nnn => exact callTo_mapOutputs σ φ _ nnn s
  case ret =>
    by_cases hsp : s.sp = 0
    · rw [exec_ret_of_empty s hsp, exec_ret_of_empty (s.mapOutputs σ φ) hsp]; rfl
    · rw [exec_ret_of_nonempty s hsp, exec_ret_of_nonempty (s.mapOutputs σ φ) hsp]; rfl
  case ldVxK x =>
    cases hkey : s.key with
    | none => rw [exec_ldVxK_of_none x s hkey, exec_ldVxK_of_none x (s.mapOutputs σ φ) hkey]; rfl
    | some k => rw [exec_ldVxK_of_some x s hkey, exec_ldVxK_of_some x (s.mapOutputs σ φ) hkey]; rfl
  case ldBVx | ldMiVx => exact storeBytes_mapOutputs σ φ _ _ _ s
  case ldVxMi => exact loadRegs_mapOutputs σ φ _ _ _ s
  all_goals rfl

end outputs

theorem exec_drw_setST (x y : RegIdx) (n : Fin 16) (s : State) (b : Byte) :
    exec (.drw x y n) (s.setST b) = onNext (fun t => t.setST b) (exec (.drw x y n) s) := by
  by_cases hfit : InBounds s n.val
  · rw [exec_drw_of_fits x y n s hfit, exec_drw_of_fits x y n (s.setST b) hfit]; rfl
  · rw [exec_drw_of_beyond x y n s hfit, exec_drw_of_beyond x y n (s.setST b) hfit]; rfl

/-- Settles O47: the three writers of ST and the screen are read off their equations; the rest go past both. -/
theorem soundTimerCannotBeRead : Obligations.SoundTimerCannotBeRead := by
  intro i s b
  split
  case isTrue hst => obtain ⟨x, rfl⟩ := hst; rfl
  case isFalse hst =>
    cases i
    case cls => rfl
    case drw x y n => exact exec_drw_setST x y n s b
    all_goals exact exec_mapOutputs (fun _ => b) id (by simp) (by simp) (not_exists.mp hst) s

/-- Settles O48: CLS and LD ST are read off their equations; the rest go past the screen. -/
theorem displayIsReadByDrawAlone : Obligations.DisplayIsReadByDrawAlone := by
  intro i s f hdrw
  split
  case isTrue hcls => subst hcls; rfl
  case isFalse hcls =>
    by_cases hst : ∃ x, i = .ldStVx x
    · obtain ⟨x, rfl⟩ := hst; rfl
    · exact exec_mapOutputs id (fun _ => f) hcls hdrw (not_exists.mp hst) s

end Sys2Proof.Machine
end
